-- ==== Sys2Proof/Word.lean ====
section
/-! DEFINITION. The widths of the spec's field types (00_scope.md R16, R19): a byte, a MAC address, an IPv4 address, and the
16-bit and 8-bit header fields. Every one is an unsigned bit vector; bit 0 is the least significant bit. -/

namespace Sys2Proof

/-- A byte is 8 bits (R16). -/
abbrev Byte := BitVec 8

/-- `mac`: 48 bits; the first byte on the wire is bits 47:40 (R19, R65). -/
abbrev Mac := BitVec 48

/-- `ip`: 32 bits; the first byte on the wire is bits 31:24 (R19, R65). -/
abbrev Ip := BitVec 32

/-- `u16` (R19). -/
abbrev U16 := BitVec 16

/-- `u8` (R19). -/
abbrev U8 := BitVec 8

end Sys2Proof
end

