-- ==== Sys2Proof/Syntax.lean ====
section
/-! DEFINITION. The records of the decodes, the events and output items, and `Instr`: one constructor for each row of the
opcode table (13 ingress classes, 30_encoding.md R99, and the egress reply format, R100). -/

namespace Sys2Proof

/-! ## Records of the decodes (40_decode.md, 42_arp_responder.md) -/

/-- The record of `decodeEthernet` (R132). -/
structure EthernetFrame where
  destMac     : Mac
  srcMac      : Mac
  etherType   : U16
  payloadBase : Nat
  payloadLen  : Nat
  deriving DecidableEq, Repr

/-- The record of `decodeArp`, all nine fields (R138). -/
structure ArpMessage where
  hwType    : U16
  protoType : U16
  hwLen     : U8
  protoLen  : U8
  opcode    : U16
  senderMac : Mac
  senderIp  : Ip
  targetMac : Mac
  targetIp  : Ip
  deriving DecidableEq, Repr

/-- The record of `decodeIpv4` (R146). -/
structure Ipv4Header where
  versionIhl  : U8
  hl          : Nat
  protocol    : U8
  srcIp       : Ip
  dstIp       : Ip
  payloadBase : Nat
  payloadLen  : Nat
  deriving DecidableEq, Repr

/-- The record of `decodeUdp` (R154). -/
structure UdpDatagram where
  srcPort : U16
  dstPort : U16
  length  : U16
  payload : List Byte
  deriving DecidableEq, Repr

/-- The intent of `ArpResponder.handle` (R192). -/
structure ArpReplyIntent where
  replyTargetMac : Mac
  replyTargetIp  : Ip
  replySenderMac : Mac
  replySenderIp  : Ip
  deriving DecidableEq, Repr

/-! ## Dispositions, events and output items -/

/-- The outcome of one processed frame (R272). The reserved codes 6, 7 and 15 have no name. -/
inductive Disposition where
  | arpReplied
  | arpRequestNoMatch
  | arpNotRequest
  | udpReported
  | ipv4NotUdp
  | ethertypeUnsupported
  | malformedEth
  | malformedArpShort
  | malformedArpFormat
  | malformedIpv4Short
  | malformedIpv4Ihl
  | malformedIpv4Trunc
  | malformedUdpShort
  deriving DecidableEq, Repr

/-- An event record (R251). The code of a `decodeError` is the 4-bit value the port shows (R272, R274), so that a reserved
code, which a model faults on (R281), can be written down. -/
inductive Event where
  | arpRequestObserved (arp : ArpMessage)
  | arpReplySent (intent : ArpReplyIntent)
  | udpPacketObserved (srcIp : Ip) (srcPort : U16) (dstIp : Ip) (dstPort : U16) (payload : List Byte)
  | decodeError (code : BitVec 4)
  deriving DecidableEq, Repr

/-- An output item of `PENDING` (R43). -/
inductive OutItem where
  | tx (frame : List Byte)
  | ev (event : Event)
  deriving DecidableEq, Repr

/-! ## The opcode table's rows -/

/-- The classes of an ingress frame, in priority order (R99). -/
inductive FrameClass where
  | ethRunt
  | arpShort
  | arpBadfmt
  | arpReqMatch
  | arpReqOther
  | arpNonreq
  | ipv4Short
  | ipv4Badihl
  | ipv4Trunc
  | ipv4Nonudp
  | udpShort
  | ipv4Udp
  | ethOther
  deriving DecidableEq, Repr

/-- The fields of an IPv4 header as the frame carries them (R92). `bytes1to8`, `bytes10to11`, `version` and `options` select
nothing and no meaning reads them (R93, R97); they are here so that no bit of a frame is lost in decoding it. -/
structure Ipv4Fields where
  version     : BitVec 4
  ihl         : BitVec 4
  bytes1to8   : BitVec 64
  protocol    : U8
  bytes10to11 : U16
  srcIp       : Ip
  dstIp       : Ip
  options     : List Byte
  deriving DecidableEq, Repr

/-- The fields of a UDP header as the frame carries them (R94). No meaning reads the checksum. -/
structure UdpFields where
  srcPort  : U16
  dstPort  : U16
  length   : U16
  checksum : U16
  deriving DecidableEq, Repr

/-- One constructor for each row of spec/opcode_table.json. The NFB executes no instructions: its unit of work is one ingress
frame (R32), so an instruction is a classified frame, split into the fields of the layouts of R90 to R95; `dst` and `src` are the
Ethernet addresses, and `etherType` stands only where the class does not fix it. Every byte of the frame is in some field. -/
inductive Instr where
  /-- `ETH_RUNT` (R215): all the bytes of the frame. -/
  | ethRunt (bytes : List Byte)
  /-- `ARP_SHORT` (R216): `body` is every byte from offset 14 on. -/
  | arpShort (dst src : Mac) (body : List Byte)
  /-- `ARP_BADFMT` (R217): `rest` is every byte from offset 20 on. -/
  | arpBadfmt (dst src : Mac) (hwType protoType : U16) (hwLen protoLen : U8) (rest : List Byte)
  /-- `ARP_REQ_MATCH` (R218): sender and target addresses of the request; `trailer` is every byte from offset 42 on (R91). -/
  | arpReqMatch (dst src senderMac : Mac) (senderIp : Ip) (targetMac : Mac) (targetIp : Ip) (trailer : List Byte)
  /-- `ARP_REQ_OTHER` (R219). -/
  | arpReqOther (dst src senderMac : Mac) (senderIp : Ip) (targetMac : Mac) (targetIp : Ip) (trailer : List Byte)
  /-- `ARP_NONREQ` (R220). -/
  | arpNonreq (dst src : Mac) (opcode : U16) (senderMac : Mac) (senderIp : Ip) (targetMac : Mac) (targetIp : Ip)
      (trailer : List Byte)
  /-- `IPV4_SHORT` (R221): `body` is every byte from offset 14 on. -/
  | ipv4Short (dst src : Mac) (body : List Byte)
  /-- `IPV4_BADIHL` (R222): `rest` is every byte from offset 15 on. -/
  | ipv4Badihl (dst src : Mac) (version ihl : BitVec 4) (rest : List Byte)
  /-- `IPV4_TRUNC` (R223): `rest` is every byte from offset 15 on. -/
  | ipv4Trunc (dst src : Mac) (version ihl : BitVec 4) (rest : List Byte)
  /-- `IPV4_NONUDP` (R224): `payload` is every byte after the IPv4 header. -/
  | ipv4Nonudp (dst src : Mac) (ip : Ipv4Fields) (payload : List Byte)
  /-- `UDP_SHORT` (R225): `payload` is every byte after the IPv4 header, fewer than 8. -/
  | udpShort (dst src : Mac) (ip : Ipv4Fields) (payload : List Byte)
  /-- `IPV4_UDP` (R226): `data` is every byte after the UDP header, before the clamp of R155. -/
  | ipv4Udp (dst src : Mac) (ip : Ipv4Fields) (udp : UdpFields) (data : List Byte)
  /-- `ETH_OTHER` (R227). -/
  | ethOther (dst src : Mac) (etherType : U16) (payload : List Byte)
  /-- `TX_ARP_REPLY` (R100, R171): the four operands of `encodeArpReply`, in its order. -/
  | txArpReply (targetMac : Mac) (targetIp : Ip) (senderMac : Mac) (senderIp : Ip)
  deriving DecidableEq, Repr

/-- The port a row's frame belongs to: the table's `format`, INGRESS_FRAME or EGRESS_ARP_REPLY (R33, R34). -/
inductive Port where
  | ingress
  | egress
  deriving DecidableEq, Repr

/-- The port of an instruction's frame. -/
def Instr.port : Instr → Port
  | .txArpReply _ _ _ _ => .egress
  | .ethRunt _ => .ingress
  | .arpShort _ _ _ => .ingress
  | .arpBadfmt _ _ _ _ _ _ _ => .ingress
  | .arpReqMatch _ _ _ _ _ _ _ => .ingress
  | .arpReqOther _ _ _ _ _ _ _ => .ingress
  | .arpNonreq _ _ _ _ _ _ _ _ => .ingress
  | .ipv4Short _ _ _ => .ingress
  | .ipv4Badihl _ _ _ _ _ => .ingress
  | .ipv4Trunc _ _ _ _ _ => .ingress
  | .ipv4Nonudp _ _ _ _ => .ingress
  | .udpShort _ _ _ _ => .ingress
  | .ipv4Udp _ _ _ _ _ => .ingress
  | .ethOther _ _ _ _ => .ingress

/-- The class of an ingress instruction; the egress format has none (R99, R100). -/
def Instr.frameClass : Instr → Option FrameClass
  | .ethRunt _ => some .ethRunt
  | .arpShort _ _ _ => some .arpShort
  | .arpBadfmt _ _ _ _ _ _ _ => some .arpBadfmt
  | .arpReqMatch _ _ _ _ _ _ _ => some .arpReqMatch
  | .arpReqOther _ _ _ _ _ _ _ => some .arpReqOther
  | .arpNonreq _ _ _ _ _ _ _ _ => some .arpNonreq
  | .ipv4Short _ _ _ => some .ipv4Short
  | .ipv4Badihl _ _ _ _ _ => some .ipv4Badihl
  | .ipv4Trunc _ _ _ _ _ => some .ipv4Trunc
  | .ipv4Nonudp _ _ _ _ => some .ipv4Nonudp
  | .udpShort _ _ _ _ => some .udpShort
  | .ipv4Udp _ _ _ _ _ => some .ipv4Udp
  | .ethOther _ _ _ _ => some .ethOther
  | .txArpReply _ _ _ _ => none

end Sys2Proof
end

