-- ==== Sys2Proof/Config.lean ====
section
/-! DEFINITION. The parameters of the block (00_scope.md section 4) and the model's free values. A parameter the spec leaves open,
and a choice the spec leaves open, is an opaque constant: no proof can see its value, so a statement holds for every one. -/

namespace Sys2Proof

/-- `MAX_FRAME = 2048`, fixed (R9). -/
def Config.maxFrame : Nat := 2048

/-- The Ethernet header is 14 bytes (R14). -/
def Config.ethHeader : Nat := 14

/-- The ARP body is 28 bytes (R14). -/
def Config.arpBody : Nat := 28

/-- The minimum IPv4 header is 20 bytes (R14). -/
def Config.ipv4MinHeader : Nat := 20

/-- The UDP header is 8 bytes (R14). -/
def Config.udpHeader : Nat := 8

/-- The egress ARP reply frame is exactly 60 bytes (R14). -/
def Config.replyFrame : Nat := 60

/-- `CFG_ID_MAC` as driven up to the first release of RESET: an open parameter with no default in the hardware (R10, R36).
Assumption 1. -/
opaque Config.cfgIdMac : Mac

/-- `CFG_ID_IP` as driven up to the first release of RESET: an open parameter with no default in the hardware (R10, R36).
Assumption 1. -/
opaque Config.cfgIdIp : Ip

/-- `P_REPORT_MALFORMED`, a static parameter fixed when the block is built (R11, R320). Open here, so that a statement holds for
both values (92_eei_decisions.md D15). Assumption 2. -/
opaque Config.reportMalformed : Bool

/-- `EVENT_ENCODING`, the bit layout of an event record on the event port: an open parameter no rule depends on (R12, R251).
Assumption 3. -/
opaque Config.eventEncoding : Event → List Bool

/-- A free value: whether STOP is taken before another step of the NFB that is enabled at the same time. The spec admits both
orders (R276, 92_eei_decisions.md D31). Applied to the counter `draws` of State, so that each choice is fresh. Assumption 4. -/
opaque Config.stopFirst : Nat → Bool

end Sys2Proof
end

