-- ==== Sys2Proof/Machine/Operands.lean ====
section
/-! DEFINITION. Operand assembly: network byte order (20_memory.md R64, R65), the IHL operands and the UDP payload length
(30_encoding.md R96), and the disposition codes (60_exceptions.md R272). -/

namespace Sys2Proof

/-- The bytes as one unsigned number, the byte at the lower offset more significant (R17, R64). -/
def beValue (bs : List Byte) : Nat :=
  bs.foldl (fun acc b => acc * 256 + b.toNat) 0

/-- The `n` bytes of a value, most significant first (R17, R64). -/
def beBytes : Nat → Nat → List Byte
  | 0, _ => []
  | n + 1, v => BitVec.ofNat 8 (v / 256 ^ n) :: beBytes n v

/-- The wire bytes of a MAC address (R65). -/
def macBytes (m : Mac) : List Byte := beBytes 6 m.toNat

/-- The wire bytes of an IPv4 address (R65). -/
def ipBytes (a : Ip) : List Byte := beBytes 4 a.toNat

/-- The wire bytes of a 16-bit field (R64). -/
def u16Bytes (v : U16) : List Byte := beBytes 2 v.toNat

/-- `etherType` of ARP (R98). -/
def etherArp : U16 := 0x0806#16

/-- `etherType` of IPv4 (R98). -/
def etherIpv4 : U16 := 0x0800#16

/-- `IHL = versionIhl[3:0]` (R96). -/
def ihlOf (versionIhl : U8) : BitVec 4 := versionIhl.extractLsb' 0 4

/-- The version nibble, bits 7:4; nothing checks it (R92, R97). -/
def versionOf (versionIhl : U8) : BitVec 4 := versionIhl.extractLsb' 4 4

/-- The first byte of an IPv4 header (R92). -/
def versionIhlByte (version ihl : BitVec 4) : U8 := version ++ ihl

/-- `hl = 4 * IHL`, in bytes, from 0 to 60 (R96). -/
def headerLength (ihl : BitVec 4) : Nat := 4 * ihl.toNat

/-- `clamp(v, lo, hi) = min(max(v, lo), hi)` on integers (R15). -/
def clamp (v lo hi : Int) : Int := min (max v lo) hi

/-- `plen = clamp(udpLength - 8, 0, n - 8)` on integers, with no wrap (R96, R153, R155). -/
def udpPayloadLength (udpLength : U16) (n : Nat) : Nat :=
  (clamp ((udpLength.toNat : Int) - 8) 0 ((n : Int) - 8)).toNat

/-- The 4-bit code of a disposition (R272). -/
def dispositionCode : Disposition → BitVec 4
  | .arpReplied => 0
  | .arpRequestNoMatch => 1
  | .arpNotRequest => 2
  | .udpReported => 3
  | .ipv4NotUdp => 4
  | .ethertypeUnsupported => 5
  | .malformedEth => 8
  | .malformedArpShort => 9
  | .malformedArpFormat => 10
  | .malformedIpv4Short => 11
  | .malformedIpv4Ihl => 12
  | .malformedIpv4Trunc => 13
  | .malformedUdpShort => 14

/-- Codes 6, 7 and 15 are reserved and never produced (R272). -/
def reservedCode (code : BitVec 4) : Bool := code == 6 || code == 7 || code == 15

/-- `RUN_STATE = RUNNING` (R41). -/
def runRunning : BitVec 2 := 0b00#2

/-- `RUN_STATE = STOPPING` (R41). -/
def runStopping : BitVec 2 := 0b01#2

/-- `RUN_STATE = STOPPED` (R41). -/
def runStopped : BitVec 2 := 0b10#2

/-- The value `RUN_STATE` never takes (R41). -/
def runIllegal : BitVec 2 := 0b11#2

/-- The category of a disposition (R271, R272). -/
inductive Category where
  | normal
  | unsupportedProtocol
  | malformed
  deriving DecidableEq, Repr

/-- The category column of R272. -/
def dispositionCategory : Disposition → Category
  | .arpReplied => .normal
  | .arpRequestNoMatch => .normal
  | .arpNotRequest => .normal
  | .udpReported => .normal
  | .ipv4NotUdp => .unsupportedProtocol
  | .ethertypeUnsupported => .unsupportedProtocol
  | .malformedEth => .malformed
  | .malformedArpShort => .malformed
  | .malformedArpFormat => .malformed
  | .malformedIpv4Short => .malformed
  | .malformedIpv4Ihl => .malformed
  | .malformedIpv4Trunc => .malformed
  | .malformedUdpShort => .malformed

/-- The disposition of a class (R99, R272). -/
def classDisposition : FrameClass → Disposition
  | .ethRunt => .malformedEth
  | .arpShort => .malformedArpShort
  | .arpBadfmt => .malformedArpFormat
  | .arpReqMatch => .arpReplied
  | .arpReqOther => .arpRequestNoMatch
  | .arpNonreq => .arpNotRequest
  | .ipv4Short => .malformedIpv4Short
  | .ipv4Badihl => .malformedIpv4Ihl
  | .ipv4Trunc => .malformedIpv4Trunc
  | .ipv4Nonudp => .ipv4NotUdp
  | .udpShort => .malformedUdpShort
  | .ipv4Udp => .udpReported
  | .ethOther => .ethertypeUnsupported

end Sys2Proof
end

