-- ==== Sys2Proof/Machine/Flags.lean ====
section
/-! DEFINITION. The NFB has no status flags, condition codes or predicates: the result of each check is consumed at once by the
dispatch (10_state.md R45). These are those checks, each named once. -/

namespace Sys2Proof

/-- The only ARP format the NFB supports (R104, R137). -/
def arpFormatSupported (hwType protoType : U16) (hwLen protoLen : U8) : Bool :=
  hwType == 0x0001#16 && protoType == 0x0800#16 && hwLen == 6#8 && protoLen == 4#8

/-- `opcode = 1` is a request; every other value is not (R103). -/
def isRequest (opcode : U16) : Bool := opcode == 1#16

/-- `protocol = 17` is UDP (R211). -/
def isUdp (protocol : U8) : Bool := protocol == 17#8

/-- `IHL < 5` is malformed (R105). -/
def ihlMalformed (ihl : BitVec 4) : Bool := ihl.toNat < 5

end Sys2Proof
end

