-- ==== Sys2Proof/Machine/Buffers.lean ====
section
/-! DEFINITION. The two byte-addressed spaces of the NFB (20_memory.md R60): the ingress frame buffer `IFB` and the egress frame
buffer `EFB`. Both exist only inside the step that processes one frame (R44), so neither is a field of State. Each is the list of
its bytes, offset 0 first: offset `i` is element `i`, and an offset at or past the length does not exist. -/

namespace Sys2Proof

/-- `IFB`, with `L` its length (R61). -/
abbrev Ifb := List Byte

/-- `EFB`, 60 bytes (R62). -/
abbrev Efb := List Byte

/-- Why reading a frame's bytes gives no instruction. `drop` and `boundViolation` are raised inside the decodes; `decode` turns
every `drop` into the instruction of its class, so it rejects only by the other two names. -/
inductive Reject where
  /-- `raise Drop(code)` (R18, R130). -/
  | drop (code : Disposition)
  /-- A read with `a + n > L` (R67); the rules never issue one. -/
  | boundViolation
  /-- Bytes on the egress port that are not the reply format of R95. -/
  | notArpReply
  deriving DecidableEq, Repr

/-- `L <- min(len(F), MAX_FRAME); IFB <- F[0:L]` (R61). -/
def loadIfb (frame : List Byte) : Ifb := frame.take Config.maxFrame

/-- The size of an `IFB` (R61). -/
abbrev Ifb.wf (m : Ifb) : Prop := m.length ≤ Config.maxFrame

/-- The size of an `EFB` (R62). -/
abbrev Efb.wf (m : Efb) : Prop := m.length = Config.replyFrame

/-- `Bytes(a, n)`, the sub-sequence `IFB[a:a+n]`; a bound violation past `L` (R17, R67). -/
def bytesAt (m : Ifb) (a n : Nat) : Except Reject (List Byte) :=
  if a + n ≤ m.length then .ok ((m.drop a).take n) else .error .boundViolation

/-- `MemRead(a, n)` as a value of `w` bits, `w = 8n` in every use: big-endian (R17, R64). -/
def memRead (w : Nat) (m : Ifb) (a n : Nat) : Except Reject (BitVec w) :=
  match bytesAt m a n with
  | .ok bs => .ok (BitVec.ofNat w (beValue bs))
  | .error e => .error e

/-- Read one byte (R68). -/
def readU8 (m : Ifb) (a : Nat) : Except Reject U8 := memRead 8 m a 1

/-- Read a 16-bit field (R68). -/
def readU16 (m : Ifb) (a : Nat) : Except Reject U16 := memRead 16 m a 2

/-- Read an IPv4 address (R68). -/
def readIp (m : Ifb) (a : Nat) : Except Reject Ip := memRead 32 m a 4

/-- Read a MAC address (R68). -/
def readMac (m : Ifb) (a : Nat) : Except Reject Mac := memRead 48 m a 6

/-- `EFB[i] <- 0x00` for `i` in 0 to 59 (R171). -/
def efbZero : Efb := List.replicate Config.replyFrame 0#8

/-- `MemWrite(a, n, v)`: the `n` bytes of `v` at offsets `a` to `a+n-1`, most significant first (R17). Every write of the rules
lies inside `EFB` (R171). -/
def memWrite (a n v : Nat) (m : Efb) : Efb := m.take a ++ beBytes n v ++ m.drop (a + n)

end Sys2Proof
end

