-- ==== Sys2Proof/Machine/Encoder.lean ====
section
/-! DEFINITION. The frame encoder `encodeArpReply` (41_encode.md R171), by the writes of its pseudocode. -/

namespace Sys2Proof

/-- `encodeArpReply(targetMac, targetIp, senderMac, senderIp)`: 60 bytes (R171, R172). It cannot fail and reads no state (R170,
R173). -/
def encodeArpReply (tm : Mac) (ti : Ip) (sm : Mac) (si : Ip) : List Byte :=
  efbZero
  |> memWrite 0 6 tm.toNat
  |> memWrite 6 6 sm.toNat
  |> memWrite 12 2 0x0806
  |> memWrite 14 2 0x0001
  |> memWrite 16 2 0x0800
  |> memWrite 18 1 0x06
  |> memWrite 19 1 0x04
  |> memWrite 20 2 0x0002
  |> memWrite 22 6 sm.toNat
  |> memWrite 28 4 si.toNat
  |> memWrite 32 6 tm.toNat
  |> memWrite 38 4 ti.toNat

/-- The encoder applied to an intent, in the order R192 gives. -/
def encodeIntent (it : ArpReplyIntent) : List Byte :=
  encodeArpReply it.replyTargetMac it.replyTargetIp it.replySenderMac it.replySenderIp

end Sys2Proof
end

