-- ==== Sys2Proof/Machine/Responder.lean ====
section
/-! DEFINITION. The ARP responder `ArpResponder.handle` (42_arp_responder.md R191). -/

namespace Sys2Proof

/-- `handle(request)` with the identity registers (R191): an intent only when the message is a request for `ID_IP`. It keeps
nothing (R194) and reads only these operands (R193). -/
def handle (idMac : Mac) (idIp : Ip) (request : ArpMessage) : Option ArpReplyIntent :=
  if isRequest request.opcode && request.targetIp == idIp then
    some { replyTargetMac := request.senderMac
           replyTargetIp := request.senderIp
           replySenderMac := idMac
           replySenderIp := idIp }
  else none

end Sys2Proof
end

