-- ==== Sys2Proof/Machine/State.lean ====
section
/-! DEFINITION. The state of the machine. The spec gives it four pieces that last from one frame to the next, `ID_MAC`, `ID_IP`,
`RUN_STATE` and `PENDING` (10_state.md R30, R47), and the input levels at its ports (R33 to R37, R49). `IFB`, `L`, `EFB` and the
decoded records exist only inside one step (R44, R312), so no field holds them. The last four fields are the model's own: what the
host does next, what has left the ports, the dispositions, and the counter of free choices. -/

namespace Sys2Proof.Machine

/-- Why a step stops. All four are faults of the model, not conditions of the chip (60_exceptions.md R281): the rules never produce
one. Stopping is safe: the spec gives no behaviour after any of them, and the record is never cleared. -/
inductive Fault where
  /-- A read of `IFB` with `a + n > L` (R67, R281a). Raised by the fetch when the decoder reads out of bounds. Safe. -/
  | boundViolation
  /-- `RUN_STATE = 0b11` (R41, R281b). Raised by every step and meaning that finds it. Safe. -/
  | illegalRunState
  /-- A pending `DecodeError` with code 6, 7 or 15 (R272, R281c). Raised by every step and meaning that finds it. Safe. -/
  | reservedDisposition
  /-- `PENDING` holding more than 3 items (R42, R281d). Raised by every step and meaning that finds it. Safe. -/
  | pendingOverflow
  deriving DecidableEq, Repr

/-- Why an instruction has no meaning. -/
inductive Refusal where
  /-- Raised only by a dispatch arm that has no meaning yet; no arm of this model does. Safe. -/
  | notModelled (mnemonic : String)
  deriving DecidableEq, Repr

/-- What the host may do, each as a step of its own (R49), and `wait`: the host does nothing and the NFB has the turn (R22,
R276). -/
inductive HostAction where
  /-- Offer a frame, behind those already offered (R33, R75). -/
  | offer (frame : List Byte)
  /-- Withdraw the offered frame at this place in the line, 0 the oldest (R326). -/
  | withdraw (k : Nat)
  /-- Readiness on the egress frame port (R34, R49). -/
  | egressReady (level : Bool)
  /-- Readiness on the event port (R35, R49). -/
  | eventReady (level : Bool)
  /-- The `STOP` level (R37). -/
  | stop (level : Bool)
  /-- The `RESET` level (R37). -/
  | reset (level : Bool)
  /-- Drive `CFG_ID_MAC` and `CFG_ID_IP` (R36). -/
  | config (mac : Mac) (ip : Ip)
  /-- The NFB's turn. -/
  | wait
  deriving DecidableEq, Repr

structure State where
  /-- `ID_MAC` (R38). -/
  idMac : Mac
  /-- `ID_IP` (R39). -/
  idIp : Ip
  /-- `RUN_STATE`, 2 bits (R41). -/
  runState : BitVec 2
  /-- `PENDING`, head first (R42). -/
  pending : List OutItem
  /-- The input `CFG_ID_MAC` (R36). -/
  cfgIdMac : Mac
  /-- The input `CFG_ID_IP` (R36). -/
  cfgIdIp : Ip
  /-- The input `STOP`; true is asserted (R37). -/
  stopLevel : Bool
  /-- The input `RESET`; true is asserted (R37). -/
  resetLevel : Bool
  /-- The ingress frame port: the frames offered and not yet accepted, oldest first (R33, R326). -/
  ingress : List (List Byte)
  /-- The host is ready on the egress frame port (R34, R49). -/
  egressReady : Bool
  /-- The host is ready on the event port (R35, R49). -/
  eventReady : Bool
  /-- MODEL. What the host does next; when it is empty the host does nothing more. -/
  host : List HostAction
  /-- MODEL. The items that have left, egress frames and events in one order: the observation of a run (R329). -/
  observed : List OutItem
  /-- MODEL. The disposition of each accepted frame, oldest first; the chip shows it at no port (R273). -/
  trace : List Disposition
  /-- MODEL. How many free choices have been drawn. -/
  draws : Nat
  deriving DecidableEq, Repr

/-- The machine right after the release of RESET (R311, R312): the identity as sampled from the inputs, `RUNNING`, `PENDING` empty.
The inputs' own levels, and the model's fields, are assumption 5. -/
def State.reset : State where
  idMac := Config.cfgIdMac
  idIp := Config.cfgIdIp
  runState := runRunning
  pending := []
  cfgIdMac := Config.cfgIdMac
  cfgIdIp := Config.cfgIdIp
  stopLevel := false
  resetLevel := false
  ingress := []
  egressReady := false
  eventReady := false
  host := []
  observed := []
  trace := []
  draws := 0

end Sys2Proof.Machine
end

