-- ==== Sys2Proof/Machine/Ops.lean ====
section
/-! DEFINITION. The operations every meaning is built from: the checks that enable a step, the accept step, the drop, the emit step,
the stop step, and the host's interactions. -/

namespace Sys2Proof.Machine

/-! ## Model faults (R281) -/

/-- A pending event whose code is reserved (R272). -/
def itemReserved : OutItem → Bool
  | .ev (.decodeError code) => reservedCode code
  | .ev (.arpRequestObserved _) => false
  | .ev (.arpReplySent _) => false
  | .ev (.udpPacketObserved _ _ _ _ _) => false
  | .tx _ => false

/-- The model fault a state shows, if any (R281 b, c, d). -/
def State.modelFault (s : State) : Option Fault :=
  if s.runState = runIllegal then some .illegalRunState
  else if 3 < s.pending.length then some .pendingOverflow
  else if s.pending.any itemReserved then some .reservedDisposition
  else none

/-- Run only where the state shows no model fault. -/
def guarded (s : State) (o : Host.Outcome State Fault Refusal) : Host.Outcome State Fault Refusal :=
  match s.modelFault with
  | some f => .fault f
  | none => o

/-! ## The accept step and the drop -/

/-- The accept step is enabled: RESET deasserted, RUNNING, `PENDING` empty, and a frame offered (R210). -/
def State.acceptEnabled (s : State) : Bool :=
  !s.resetLevel && s.runState == runRunning && s.pending.isEmpty && !s.ingress.isEmpty

/-- The end of an accept step: `PENDING <- outs`, the frame consumed, the disposition recorded in the trace (R210, R273). -/
def State.load (disp : Disposition) (outs : List OutItem) (s : State) : State :=
  { s with pending := outs, ingress := s.ingress.tail, trace := s.trace ++ [disp] }

/-- Accept the offered frame with this result of ProcessFrame (R210). Where the step is not enabled nothing happens and the frame
stays offered (R326). -/
def accept (disp : Disposition) (outs : List OutItem) (s : State) : Host.Outcome State Fault Refusal :=
  guarded s (if s.acceptEnabled then .next (s.load disp outs) else .next s)

/-- The output items of a dropped frame (R212, R256): none, or one `DecodeError` when `P_REPORT_MALFORMED` and the frame got past the
Ethernet stage. -/
def dropOutputs (report : Bool) (code : Disposition) : List OutItem :=
  if code != .malformedEth && report then [.ev (.decodeError (dispositionCode code))] else []

/-- Drop entry, the NFB's only exception (R277, R278): nothing is saved, no mode or mask changes, and the frame ends with the
drop's outputs. There is no return: the next frame is accepted once `PENDING` has drained (R279). -/
def dropFrame (code : Disposition) (s : State) : Host.Outcome State Fault Refusal :=
  accept code (dropOutputs Config.reportMalformed code) s

/-- An accepted ARP request (R211): observed always, and answered when `handle` gives an intent. -/
def requestResult (idMac : Mac) (idIp : Ip) (arp : ArpMessage) : Disposition × List OutItem :=
  match handle idMac idIp arp with
  | none => (.arpRequestNoMatch, [.ev (.arpRequestObserved arp)])
  | some intent =>
      (.arpReplied, [.ev (.arpRequestObserved arp), .tx (encodeIntent intent), .ev (.arpReplySent intent)])

/-- Accept an ARP request (R210, R211). -/
def answerRequest (arp : ArpMessage) (s : State) : Host.Outcome State Fault Refusal :=
  accept (requestResult s.idMac s.idIp arp).1 (requestResult s.idMac s.idIp arp).2 s

/-- The ARP message of a request in the supported format (R138). -/
def requestMessage (sha : Mac) (spa : Ip) (tha : Mac) (tpa : Ip) : ArpMessage :=
  { hwType := 1#16, protoType := 0x0800#16, hwLen := 6#8, protoLen := 4#8, opcode := 1#16
    senderMac := sha, senderIp := spa, targetMac := tha, targetIp := tpa }

/-! ## The emit step -/

/-- The host is ready on the item's port (R214). -/
def State.portReady (s : State) : OutItem → Bool
  | .tx _ => s.egressReady
  | .ev _ => s.eventReady

/-- The emit step of `item` is enabled: RESET deasserted, RUNNING or STOPPING, `item` at the head of `PENDING`, and the host accepts
it on its port (R214). -/
def State.emitEnabled (s : State) (item : OutItem) : Bool :=
  !s.resetLevel && (s.runState == runRunning || s.runState == runStopping) && s.pending.head? == some item
    && s.portReady item

/-- The head of `PENDING` can leave. -/
def State.headReady (s : State) : Bool :=
  match s.pending with
  | [] => false
  | item :: _ => s.emitEnabled item

/-- The head leaves through its port; in STOPPING, the emit step that empties `PENDING` ends in STOPPED (R214, R317). -/
def State.pop (item : OutItem) (s : State) : State :=
  { s with
    pending := s.pending.tail
    observed := s.observed ++ [item]
    runState := if s.runState == runStopping && s.pending.tail.isEmpty then runStopped else s.runState }

/-- The emit step of `item` (R214). Where it is not enabled the NFB holds (R323). -/
def emitItem (item : OutItem) (s : State) : Host.Outcome State Fault Refusal :=
  guarded s (if s.emitEnabled item then .next (s.pop item) else .next s)

/-! ## The stop step -/

/-- The stop step is enabled (R316). -/
def State.stopEnabled (s : State) : Bool :=
  !s.resetLevel && s.stopLevel && s.runState == runRunning

/-- `StopSeen` (R316). -/
def State.seeStop (s : State) : State :=
  { s with runState := if s.pending.isEmpty then runStopped else runStopping }

/-- A free choice has been drawn. -/
def State.draw (s : State) : State := { s with draws := s.draws + 1 }

/-! ## The host's interactions (R49) -/

/-- Asserting RESET discards `PENDING` and ends STOPPING and STOPPED (R313); the frames offered stay the host's. That `RUN_STATE` reads
RUNNING from then on is DEDUCED (assumption 6), and that `observed` and `trace` go on is a DESIGN CHOICE (assumption 13). -/
def State.assertReset (s : State) : State :=
  { s with resetLevel := true, pending := [], runState := runRunning }

/-- The release of RESET: the reset state of R312 in one step, with the identity sampled from the inputs (R310, R311). DESIGN CHOICE:
`observed` and `trace` go on across the reset; the spec does not say whether the observation of a run starts anew (assumption 13). -/
def State.releaseReset (s : State) : State :=
  { s with
    resetLevel := false
    idMac := s.cfgIdMac
    idIp := s.cfgIdIp
    runState := runRunning
    pending := [] }

/-- The RESET level as the host drives it; only a change of level does anything (R37, R310). -/
def State.driveReset (level : Bool) (s : State) : State :=
  if level then (if s.resetLevel then s else s.assertReset)
  else (if s.resetLevel then s.releaseReset else s)

/-- One host interaction (R49). -/
def hostStep (a : HostAction) (s : State) : State :=
  match a with
  | .offer frame => { s with ingress := s.ingress ++ [frame] }
  | .withdraw k => { s with ingress := s.ingress.eraseIdx k }
  | .egressReady level => { s with egressReady := level }
  | .eventReady level => { s with eventReady := level }
  | .stop level => { s with stopLevel := level }
  | .reset level => s.driveReset level
  | .config mac ip => { s with cfgIdMac := mac, cfgIdIp := ip }
  | .wait => s

end Sys2Proof.Machine
end

