-- ==== Sys2Proof/Machine/Arp.lean ====
section
/-! DEFINITION. The ARP classes (43_dispatch.md R216 to R220). -/

namespace Sys2Proof.Machine

/-- `ARP_SHORT`: `Drop(MALFORMED_ARP_SHORT)` (R216). -/
def execArpShort (_dst _src : Mac) (_body : List Byte) (s : State) : Host.Outcome State Fault Refusal :=
  dropFrame .malformedArpShort s

/-- `ARP_BADFMT`: `Drop(MALFORMED_ARP_FORMAT)`, whatever the opcode (R217). -/
def execArpBadfmt (_dst _src : Mac) (_hwType _protoType : U16) (_hwLen _protoLen : U8) (_rest : List Byte) (s : State) :
    Host.Outcome State Fault Refusal :=
  dropFrame .malformedArpFormat s

/-- `ARP_REQ_MATCH`: the request is observed, the reply sent, and the sending reported, in that order (R218). -/
def execArpReqMatch (_dst _src senderMac : Mac) (senderIp : Ip) (targetMac : Mac) (targetIp : Ip) (_trailer : List Byte)
    (s : State) : Host.Outcome State Fault Refusal :=
  answerRequest (requestMessage senderMac senderIp targetMac targetIp) s

/-- `ARP_REQ_OTHER`: `handle` gives no intent, so the request is observed and not answered (R219). -/
def execArpReqOther (_dst _src senderMac : Mac) (senderIp : Ip) (targetMac : Mac) (targetIp : Ip) (_trailer : List Byte)
    (s : State) : Host.Outcome State Fault Refusal :=
  answerRequest (requestMessage senderMac senderIp targetMac targetIp) s

/-- `ARP_NONREQ`: nothing after decodeArp (R220). -/
def execArpNonreq (_dst _src : Mac) (_opcode : U16) (_senderMac : Mac) (_senderIp : Ip) (_targetMac : Mac) (_targetIp : Ip)
    (_trailer : List Byte) (s : State) : Host.Outcome State Fault Refusal :=
  accept .arpNotRequest [] s

end Sys2Proof.Machine
end

