-- ==== Sys2Proof/Machine/Egress.lean ====
section
/-! DEFINITION. The egress reply format `TX_ARP_REPLY` (30_encoding.md R100, 41_encode.md R171). -/

namespace Sys2Proof.Machine

/-- `TX_ARP_REPLY`: the 60 bytes `encodeArpReply` builds from the operands leave as a `Tx` item through the egress frame port (R34,
R171, R214). Assumption 8 says why the row is the emit step. -/
def execTxArpReply (targetMac : Mac) (targetIp : Ip) (senderMac : Mac) (senderIp : Ip) (s : State) :
    Host.Outcome State Fault Refusal :=
  emitItem (.tx (encodeArpReply targetMac targetIp senderMac senderIp)) s

end Sys2Proof.Machine
end

