-- ==== Sys2Proof/Machine/Ethernet.lean ====
section
/-! DEFINITION. The Ethernet classes: `ETH_RUNT` (43_dispatch.md R215) and `ETH_OTHER` (R227). -/

namespace Sys2Proof.Machine

/-- `ETH_RUNT`: `Drop(MALFORMED_ETH)`, no output whatever `P_REPORT_MALFORMED` is (R215). -/
def execEthRunt (_bytes : List Byte) (s : State) : Host.Outcome State Fault Refusal :=
  dropFrame .malformedEth s

/-- `ETH_OTHER`: nothing after decodeEthernet, no output (R227). -/
def execEthOther (_dst _src : Mac) (_etherType : U16) (_payload : List Byte) (s : State) :
    Host.Outcome State Fault Refusal :=
  accept .ethertypeUnsupported [] s

end Sys2Proof.Machine
end

