-- ==== Sys2Proof/Machine/Ipv4.lean ====
section
/-! DEFINITION. The IPv4 and UDP classes (43_dispatch.md R221 to R226). -/

namespace Sys2Proof.Machine

/-- `IPV4_SHORT`: `Drop(MALFORMED_IPV4_SHORT)` (R221). -/
def execIpv4Short (_dst _src : Mac) (_body : List Byte) (s : State) : Host.Outcome State Fault Refusal :=
  dropFrame .malformedIpv4Short s

/-- `IPV4_BADIHL`: `Drop(MALFORMED_IPV4_IHL)` (R222). -/
def execIpv4Badihl (_dst _src : Mac) (_version _ihl : BitVec 4) (_rest : List Byte) (s : State) :
    Host.Outcome State Fault Refusal :=
  dropFrame .malformedIpv4Ihl s

/-- `IPV4_TRUNC`: `Drop(MALFORMED_IPV4_TRUNC)` (R223). -/
def execIpv4Trunc (_dst _src : Mac) (_version _ihl : BitVec 4) (_rest : List Byte) (s : State) :
    Host.Outcome State Fault Refusal :=
  dropFrame .malformedIpv4Trunc s

/-- `IPV4_NONUDP`: nothing after decodeIpv4, and no `DecodeError` (R224). -/
def execIpv4Nonudp (_dst _src : Mac) (_ip : Ipv4Fields) (_payload : List Byte) (s : State) :
    Host.Outcome State Fault Refusal :=
  accept .ipv4NotUdp [] s

/-- `UDP_SHORT`: `Drop(MALFORMED_UDP_SHORT)` (R225). -/
def execUdpShort (_dst _src : Mac) (_ip : Ipv4Fields) (_payload : List Byte) (s : State) :
    Host.Outcome State Fault Refusal :=
  dropFrame .malformedUdpShort s

/-- The payload decodeUdp reports: `plen` bytes of what follows the UDP header, `n` being 8 more than the bytes there (R153,
R155). -/
def udpPayload (udp : UdpFields) (data : List Byte) : List Byte :=
  data.take (udpPayloadLength udp.length (data.length + 8))

/-- `IPV4_UDP`: one `UdpPacketObserved` with the source's five fields (R226, R254). -/
def execIpv4Udp (_dst _src : Mac) (ip : Ipv4Fields) (udp : UdpFields) (data : List Byte) (s : State) :
    Host.Outcome State Fault Refusal :=
  accept .udpReported
    [.ev (.udpPacketObserved ip.srcIp udp.srcPort ip.dstIp udp.dstPort (udpPayload udp data))] s

end Sys2Proof.Machine
end

