-- ==== Sys2Proof/Machine/Dispatch.lean ====
section
/-! DEFINITION. One arm for each row of the opcode table. -/

namespace Sys2Proof.Machine

def exec (i : Instr) (s : State) : Host.Outcome State Fault Refusal :=
  match i with
  | .ethRunt bytes => Sys2Proof.Machine.execEthRunt bytes s
  | .arpShort dst src body => Sys2Proof.Machine.execArpShort dst src body s
  | .arpBadfmt dst src hwType protoType hwLen protoLen rest => Sys2Proof.Machine.execArpBadfmt dst src hwType protoType hwLen protoLen rest s
  | .arpReqMatch dst src sha spa tha tpa trailer => Sys2Proof.Machine.execArpReqMatch dst src sha spa tha tpa trailer s
  | .arpReqOther dst src sha spa tha tpa trailer => Sys2Proof.Machine.execArpReqOther dst src sha spa tha tpa trailer s
  | .arpNonreq dst src opcode sha spa tha tpa trailer => Sys2Proof.Machine.execArpNonreq dst src opcode sha spa tha tpa trailer s
  | .ipv4Short dst src body => Sys2Proof.Machine.execIpv4Short dst src body s
  | .ipv4Badihl dst src version ihl rest => Sys2Proof.Machine.execIpv4Badihl dst src version ihl rest s
  | .ipv4Trunc dst src version ihl rest => Sys2Proof.Machine.execIpv4Trunc dst src version ihl rest s
  | .ipv4Nonudp dst src ip payload => Sys2Proof.Machine.execIpv4Nonudp dst src ip payload s
  | .udpShort dst src ip payload => Sys2Proof.Machine.execUdpShort dst src ip payload s
  | .ipv4Udp dst src ip udp data => Sys2Proof.Machine.execIpv4Udp dst src ip udp data s
  | .ethOther dst src etherType payload => Sys2Proof.Machine.execEthOther dst src etherType payload s
  | .txArpReply tm ti sm si => Sys2Proof.Machine.execTxArpReply tm ti sm si s

end Sys2Proof.Machine
end

