-- ==== Sys2Proof/WellFormed.lean ====
section
/-! DEFINITION. When an instruction stands for a frame the hardware can take: the lengths and fields its class asks for (30_encoding.md
R99), and a frame of at most 2048 bytes (R61). -/

namespace Sys2Proof

/-- An IPv4 header whose length agrees with its IHL (R92, R105). -/
def Ipv4Fields.wf (ip : Ipv4Fields) : Bool :=
  !ihlMalformed ip.ihl && ip.options.length + 20 == headerLength ip.ihl

/-- The conditions of the instruction's class (R99). `idIp` is `ID_IP`, which the two ARP request classes ask about. -/
def Instr.wf (idIp : Ip) : Instr → Bool
  | .ethRunt bytes => bytes.length < 14
  | .arpShort _ _ body => body.length < 28
  | .arpBadfmt _ _ hwType protoType hwLen protoLen rest =>
      !arpFormatSupported hwType protoType hwLen protoLen && 22 ≤ rest.length && rest.length + 20 ≤ Config.maxFrame
  | .arpReqMatch _ _ _ _ _ targetIp trailer => targetIp == idIp && trailer.length + 42 ≤ Config.maxFrame
  | .arpReqOther _ _ _ _ _ targetIp trailer => targetIp != idIp && trailer.length + 42 ≤ Config.maxFrame
  | .arpNonreq _ _ opcode _ _ _ _ trailer => !isRequest opcode && trailer.length + 42 ≤ Config.maxFrame
  | .ipv4Short _ _ body => body.length < 20
  | .ipv4Badihl _ _ _ ihl rest => ihlMalformed ihl && 19 ≤ rest.length && rest.length + 15 ≤ Config.maxFrame
  | .ipv4Trunc _ _ _ ihl rest => !ihlMalformed ihl && 19 ≤ rest.length && rest.length + 1 < headerLength ihl
  | .ipv4Nonudp _ _ ip payload =>
      ip.wf && !isUdp ip.protocol && 14 + headerLength ip.ihl + payload.length ≤ Config.maxFrame
  | .udpShort _ _ ip payload => ip.wf && isUdp ip.protocol && payload.length < 8
  | .ipv4Udp _ _ ip _ data =>
      ip.wf && isUdp ip.protocol && 14 + headerLength ip.ihl + 8 + data.length ≤ Config.maxFrame
  | .ethOther _ _ etherType payload =>
      etherType != etherArp && etherType != etherIpv4 && payload.length + 14 ≤ Config.maxFrame
  | .txArpReply _ _ _ _ => true

end Sys2Proof
end

