-- ==== Sys2Proof/Decode.lean ====
section
/-! DEFINITION. The header decodes (40_decode.md), the decoder of frames to instructions, the classification table
(30_encoding.md R98, R99), and the encoder of instructions to frames (R90 to R95). -/

namespace Sys2Proof

/-! ## The four header decodes -/

/-- `decodeEthernet(L)` (R131). -/
def decodeEthernet (m : Ifb) (len : Nat) : Except Reject EthernetFrame :=
  if len < Config.ethHeader then .error (.drop .malformedEth)
  else do
    let destMac ← readMac m 0
    let srcMac ← readMac m 6
    let etherType ← readU16 m 12
    return { destMac, srcMac, etherType, payloadBase := 14, payloadLen := len - 14 }

/-- `decodeArp(b, n)`: the length first, then the format (R137, R139). -/
def decodeArp (m : Ifb) (b n : Nat) : Except Reject ArpMessage :=
  if n < Config.arpBody then .error (.drop .malformedArpShort)
  else do
    let hwType ← readU16 m b
    let protoType ← readU16 m (b + 2)
    let hwLen ← readU8 m (b + 4)
    let protoLen ← readU8 m (b + 5)
    if !arpFormatSupported hwType protoType hwLen protoLen then .error (.drop .malformedArpFormat)
    else do
      let opcode ← readU16 m (b + 6)
      let senderMac ← readMac m (b + 8)
      let senderIp ← readIp m (b + 14)
      let targetMac ← readMac m (b + 18)
      let targetIp ← readIp m (b + 24)
      return { hwType, protoType, hwLen, protoLen, opcode, senderMac, senderIp, targetMac, targetIp }

/-- `decodeIpv4(b, n)`: short, then IHL, then truncated (R145, R147). The offsets 9, 12 and 16 are the spec's general knowledge
(R92). -/
def decodeIpv4 (m : Ifb) (b n : Nat) : Except Reject Ipv4Header :=
  if n < Config.ipv4MinHeader then .error (.drop .malformedIpv4Short)
  else do
    let versionIhl ← readU8 m b
    let hl := headerLength (ihlOf versionIhl)
    if ihlMalformed (ihlOf versionIhl) then .error (.drop .malformedIpv4Ihl)
    else if n < hl then .error (.drop .malformedIpv4Trunc)
    else do
      let protocol ← readU8 m (b + 9)
      let srcIp ← readIp m (b + 12)
      let dstIp ← readIp m (b + 16)
      return { versionIhl, hl, protocol, srcIp, dstIp, payloadBase := b + hl, payloadLen := n - hl }

/-- `decodeUdp(u, n)` (R153). -/
def decodeUdp (m : Ifb) (u n : Nat) : Except Reject UdpDatagram :=
  if n < Config.udpHeader then .error (.drop .malformedUdpShort)
  else do
    let srcPort ← readU16 m u
    let dstPort ← readU16 m (u + 2)
    let length ← readU16 m (u + 4)
    let payload ← bytesAt m (u + 8) (udpPayloadLength length n)
    return { srcPort, dstPort, length, payload }

/-! ## The decoder -/

/-- Every byte of the frame from offset `a` on. -/
def bytesFrom (m : Ifb) (a : Nat) : Except Reject (List Byte) := bytesAt m a (m.length - a)

/-- An ARP frame to its instruction (R99, priorities 2 to 6). -/
def decodeArpFrame (idIp : Ip) (eth : EthernetFrame) (m : Ifb) : Except Reject Instr :=
  match decodeArp m eth.payloadBase eth.payloadLen with
  | .error (.drop .malformedArpShort) => do
      let body ← bytesFrom m 14
      return .arpShort eth.destMac eth.srcMac body
  | .error (.drop _) => do
      let hwType ← readU16 m 14
      let protoType ← readU16 m 16
      let hwLen ← readU8 m 18
      let protoLen ← readU8 m 19
      let rest ← bytesFrom m 20
      return .arpBadfmt eth.destMac eth.srcMac hwType protoType hwLen protoLen rest
  | .error e => .error e
  | .ok arp => do
      let trailer ← bytesFrom m 42
      if !isRequest arp.opcode then
        return .arpNonreq eth.destMac eth.srcMac arp.opcode arp.senderMac arp.senderIp arp.targetMac arp.targetIp trailer
      else if arp.targetIp == idIp then
        return .arpReqMatch eth.destMac eth.srcMac arp.senderMac arp.senderIp arp.targetMac arp.targetIp trailer
      else
        return .arpReqOther eth.destMac eth.srcMac arp.senderMac arp.senderIp arp.targetMac arp.targetIp trailer

/-- The payload of a decoded IPv4 header to its instruction (R99, priorities 10 to 12). -/
def decodeIpv4Payload (eth : EthernetFrame) (m : Ifb) (hdr : Ipv4Header) : Except Reject Instr := do
  let bytes1to8 ← memRead 64 m 15 8
  let bytes10to11 ← readU16 m 24
  let options ← bytesAt m 34 (hdr.hl - 20)
  let ip : Ipv4Fields :=
    { version := versionOf hdr.versionIhl, ihl := ihlOf hdr.versionIhl, bytes1to8, protocol := hdr.protocol, bytes10to11
      srcIp := hdr.srcIp, dstIp := hdr.dstIp, options }
  let payload ← bytesFrom m hdr.payloadBase
  if !isUdp hdr.protocol then return .ipv4Nonudp eth.destMac eth.srcMac ip payload
  else match decodeUdp m hdr.payloadBase hdr.payloadLen with
    | .error (.drop _) => return .udpShort eth.destMac eth.srcMac ip payload
    | .error e => .error e
    | .ok udp => do
        let checksum ← readU16 m (hdr.payloadBase + 6)
        let data ← bytesFrom m (hdr.payloadBase + 8)
        return .ipv4Udp eth.destMac eth.srcMac ip
          { srcPort := udp.srcPort, dstPort := udp.dstPort, length := udp.length, checksum } data

/-- An IPv4 frame to its instruction (R99, priorities 7 to 12). -/
def decodeIpv4Frame (eth : EthernetFrame) (m : Ifb) : Except Reject Instr :=
  match decodeIpv4 m eth.payloadBase eth.payloadLen with
  | .error (.drop .malformedIpv4Short) => do
      let body ← bytesFrom m 14
      return .ipv4Short eth.destMac eth.srcMac body
  | .error (.drop .malformedIpv4Ihl) => do
      let b ← readU8 m 14
      let rest ← bytesFrom m 15
      return .ipv4Badihl eth.destMac eth.srcMac (versionOf b) (ihlOf b) rest
  | .error (.drop _) => do
      let b ← readU8 m 14
      let rest ← bytesFrom m 15
      return .ipv4Trunc eth.destMac eth.srcMac (versionOf b) (ihlOf b) rest
  | .error e => .error e
  | .ok hdr => decodeIpv4Payload eth m hdr

/-- An ingress frame to its instruction: the stages in the order of R275, the first check that fails decides. -/
def decodeFrame (idIp : Ip) (m : Ifb) : Except Reject Instr :=
  match decodeEthernet m m.length with
  | .error (.drop _) => .ok (.ethRunt m)
  | .error e => .error e
  | .ok eth =>
      if eth.etherType == etherArp then decodeArpFrame idIp eth m
      else if eth.etherType == etherIpv4 then decodeIpv4Frame eth m
      else do
        let payload ← bytesFrom m 14
        return .ethOther eth.destMac eth.srcMac eth.etherType payload

/-- The egress reply format of R95: its constants, and its repeated fields equal. -/
def decodeReply (m : List Byte) : Except Reject Instr := do
  let tm ← readMac m 0
  let sm ← readMac m 6
  let fixed ← bytesAt m 12 10
  let sm' ← readMac m 22
  let si ← readIp m 28
  let tm' ← readMac m 32
  let ti ← readIp m 38
  let pad ← bytesFrom m 42
  if fixed == [0x08#8, 0x06#8, 0x00#8, 0x01#8, 0x08#8, 0x00#8, 0x06#8, 0x04#8, 0x00#8, 0x02#8]
      && sm' == sm && tm' == tm && pad == List.replicate 18 0#8 then
    return .txArpReply tm ti sm si
  else .error .notArpReply

/-- Bytes at a port to an instruction. On the ingress port the bytes past offset 2047 are discarded first (R61). -/
def decode (idIp : Ip) : Port → List Byte → Except Reject Instr
  | .ingress, bytes => decodeFrame idIp (loadIfb bytes)
  | .egress, bytes => decodeReply bytes

/-! ## The classification table (R98, R99) -/

/-- The classification window `W`: the 96-bit big-endian value of frame bytes 12 to 23, bytes at offsets `>= L` counting as 0
(R98). -/
def window (m : Ifb) : BitVec 96 :=
  BitVec.ofNat 96 (beValue ((List.range 12).map fun k => m.getD (12 + k) 0#8))

/-- One row: `match`, `mask` and the condition a mask cannot express (R98). -/
structure ClassRow where
  cls   : FrameClass
  pat   : BitVec 96
  mask  : BitVec 96
  cond  : Ip → Ifb → Bool

/-- `IHL` of the window, `W[75:72]`, which is the low nibble of frame byte 14. -/
def windowIhl (m : Ifb) : Nat := ((window m).extractLsb' 72 4).toNat

/-- `targetIp` of an ARP frame, frame bytes 38 to 41 (R91). -/
def windowTargetIp (m : Ifb) : Ip := BitVec.ofNat 32 (beValue ((m.drop 38).take 4))

/-- The 13 ingress rows of opcode_table.json, in priority order (R99). -/
def classTable : List ClassRow :=
  [ ⟨.ethRunt, 0, 0, fun _ m => m.length < 14⟩
  , ⟨.arpShort, 0x080600000000000000000000#96, 0xffff00000000000000000000#96, fun _ m => m.length < 42⟩
  , ⟨.arpBadfmt, 0x080600000000000000000000#96, 0xffff00000000000000000000#96,
      fun _ m => 42 ≤ m.length && (window m).extractLsb' 32 48 != 0x000108000604#48⟩
  , ⟨.arpReqMatch, 0x080600010800060400010000#96, 0xffffffffffffffffffff0000#96,
      fun idIp m => 42 ≤ m.length && windowTargetIp m == idIp⟩
  , ⟨.arpReqOther, 0x080600010800060400010000#96, 0xffffffffffffffffffff0000#96,
      fun idIp m => 42 ≤ m.length && windowTargetIp m != idIp⟩
  , ⟨.arpNonreq, 0x080600010800060400000000#96, 0xffffffffffffffff00000000#96,
      fun _ m => 42 ≤ m.length && (window m).extractLsb' 16 16 != 1#16⟩
  , ⟨.ipv4Short, 0x080000000000000000000000#96, 0xffff00000000000000000000#96, fun _ m => m.length < 34⟩
  , ⟨.ipv4Badihl, 0x080000000000000000000000#96, 0xffff00000000000000000000#96,
      fun _ m => 34 ≤ m.length && windowIhl m < 5⟩
  , ⟨.ipv4Trunc, 0x080000000000000000000000#96, 0xffff00000000000000000000#96,
      fun _ m => 34 ≤ m.length && 5 ≤ windowIhl m && m.length < 14 + 4 * windowIhl m⟩
  , ⟨.ipv4Nonudp, 0x080000000000000000000000#96, 0xffff00000000000000000000#96,
      fun _ m => 34 ≤ m.length && 5 ≤ windowIhl m && 14 + 4 * windowIhl m ≤ m.length
        && (window m).extractLsb' 0 8 != 17#8⟩
  , ⟨.udpShort, 0x080000000000000000000011#96, 0xffff000000000000000000ff#96,
      fun _ m => 34 ≤ m.length && 5 ≤ windowIhl m && 14 + 4 * windowIhl m ≤ m.length
        && m.length < 14 + 4 * windowIhl m + 8⟩
  , ⟨.ipv4Udp, 0x080000000000000000000011#96, 0xffff000000000000000000ff#96,
      fun _ m => 34 ≤ m.length && 5 ≤ windowIhl m && 14 + 4 * windowIhl m + 8 ≤ m.length⟩
  , ⟨.ethOther, 0, 0, fun _ m => 14 ≤ m.length⟩ ]

/-- A row selects a frame when `(W & mask) == match` and its condition holds (R98). -/
def ClassRow.selects (r : ClassRow) (idIp : Ip) (m : Ifb) : Bool :=
  window m &&& r.mask == r.pat && r.cond idIp m

/-- The class of the first row that selects the frame (R98). -/
def classify (idIp : Ip) (m : Ifb) : Option FrameClass :=
  (classTable.find? fun r => r.selects idIp m).map ClassRow.cls

/-! ## The encoder -/

/-- The Ethernet header (R90). -/
def ethBytes (dst src : Mac) (etherType : U16) : List Byte := macBytes dst ++ macBytes src ++ u16Bytes etherType

/-- The ARP body (R91), with the supported format. -/
def arpBytes (opcode : U16) (sha : Mac) (spa : Ip) (tha : Mac) (tpa : Ip) : List Byte :=
  [0x00#8, 0x01#8, 0x08#8, 0x00#8, 0x06#8, 0x04#8] ++ u16Bytes opcode ++ macBytes sha ++ ipBytes spa ++ macBytes tha
    ++ ipBytes tpa

/-- The IPv4 header (R92). -/
def ipv4Bytes (ip : Ipv4Fields) : List Byte :=
  versionIhlByte ip.version ip.ihl :: beBytes 8 ip.bytes1to8.toNat ++ [ip.protocol] ++ u16Bytes ip.bytes10to11
    ++ ipBytes ip.srcIp ++ ipBytes ip.dstIp ++ ip.options

/-- The UDP header (R94). -/
def udpBytes (udp : UdpFields) : List Byte :=
  u16Bytes udp.srcPort ++ u16Bytes udp.dstPort ++ u16Bytes udp.length ++ u16Bytes udp.checksum

/-- The frame of an instruction, from the layouts of R90 to R95. -/
def encode : Instr → List Byte
  | .ethRunt bytes => bytes
  | .arpShort dst src body => ethBytes dst src etherArp ++ body
  | .arpBadfmt dst src hwType protoType hwLen protoLen rest =>
      ethBytes dst src etherArp ++ u16Bytes hwType ++ u16Bytes protoType ++ [hwLen, protoLen] ++ rest
  | .arpReqMatch dst src sha spa tha tpa trailer => ethBytes dst src etherArp ++ arpBytes 1#16 sha spa tha tpa ++ trailer
  | .arpReqOther dst src sha spa tha tpa trailer => ethBytes dst src etherArp ++ arpBytes 1#16 sha spa tha tpa ++ trailer
  | .arpNonreq dst src opcode sha spa tha tpa trailer =>
      ethBytes dst src etherArp ++ arpBytes opcode sha spa tha tpa ++ trailer
  | .ipv4Short dst src body => ethBytes dst src etherIpv4 ++ body
  | .ipv4Badihl dst src version ihl rest => ethBytes dst src etherIpv4 ++ versionIhlByte version ihl :: rest
  | .ipv4Trunc dst src version ihl rest => ethBytes dst src etherIpv4 ++ versionIhlByte version ihl :: rest
  | .ipv4Nonudp dst src ip payload => ethBytes dst src etherIpv4 ++ ipv4Bytes ip ++ payload
  | .udpShort dst src ip payload => ethBytes dst src etherIpv4 ++ ipv4Bytes ip ++ payload
  | .ipv4Udp dst src ip udp data => ethBytes dst src etherIpv4 ++ ipv4Bytes ip ++ udpBytes udp ++ data
  | .ethOther dst src etherType payload => ethBytes dst src etherType ++ payload
  | .txArpReply tm ti sm si =>
      ethBytes tm sm etherArp ++ arpBytes 2#16 sm si tm ti ++ List.replicate 18 0#8

/-! ## The opcode table's words -/

/-- The table writes the egress format as a string of 480 bits (R100) and an ingress row as the 96 bits of `W` (R98). -/
def tablePort (nbits : Nat) : Port := if nbits = 480 then .egress else .ingress

/-- The frame a table word stands for. An ingress word is `W`, frame bytes 12 to 23, most significant byte first (R98); the bytes
before it are 0, and zeros follow up to 60 bytes, the Ethernet minimum (R172). An egress word is the whole frame, bit 479 first
(R100). Assumption 9. -/
def tableFrame (nbits w : Nat) : List Byte :=
  match tablePort nbits with
  | .egress => beBytes 60 w
  | .ingress =>
      let n := (nbits + 7) / 8
      List.replicate 12 0#8 ++ beBytes n w ++ List.replicate (48 - n) 0#8

/-- What the decoder reads from a table word, with `ID_IP` as reset samples it (R311). -/
def decodeTableWord (nbits w : Nat) : Option Instr :=
  match decode Config.cfgIdIp (tablePort nbits) (tableFrame nbits w) with
  | .ok i => some i
  | .error _ => none

end Sys2Proof
end

