-- ==== Sys2Proof/Machine/Fetch.lean ====
section
/-! DEFINITION. Which step of the NFB fires next, and the instruction it runs. An instruction's bytes are the frame at the head of the
ingress port, or the frame of a `Tx` item at the head of `PENDING` (43_dispatch.md R210, R214). -/

namespace Sys2Proof.Machine

/-- What the NFB does with its turn. -/
inductive Turn where
  /-- No step is enabled: the NFB waits (R289, R323). -/
  | hold
  /-- The stop step (R316). -/
  | stop (s : State)
  /-- The emit step of an item that is no decoded reply (R214). -/
  | emit (item : OutItem) (s : State)
  /-- Run this instruction. -/
  | run (i : Instr) (s : State)
  /-- The decoder read out of bounds (R67). -/
  | violation
  deriving DecidableEq, Repr

/-- The emit step's turn: a reply frame is decoded and run as `TX_ARP_REPLY`; every other head leaves by the same operation. -/
def emitTurn (s : State) : Turn :=
  match s.pending with
  | [] => .hold
  | .ev e :: _ => .emit (.ev e) s
  | .tx frame :: _ =>
      match decode s.idIp .egress frame with
      | .ok i => .run i s
      | .error _ => .emit (.tx frame) s

/-- The accept step's turn: the oldest offered frame, decoded with the identity (R75, R98). -/
def acceptTurn (s : State) : Turn :=
  match s.ingress with
  | [] => .hold
  | frame :: _ =>
      match decode s.idIp .ingress frame with
      | .ok i => .run i s
      | .error _ => .violation

/-- The emit step or the accept step, whichever is enabled; they never both are, since one needs `PENDING` not empty and the other
empty. -/
def workTurn (s : State) : Turn :=
  if s.headReady then emitTurn s
  else if s.acceptEnabled then acceptTurn s
  else .hold

/-- The NFB's turn. A STOP seen while another step is enabled may be taken before or after it (R276): a free choice. -/
def nfbTurn (s : State) : Turn :=
  if s.stopEnabled then
    if s.headReady || s.acceptEnabled then
      (if Config.stopFirst s.draws then .stop s.draw else workTurn s.draw)
    else .stop s
  else workTurn s

/-- Put a table word where the next step fetches it: an ingress frame first in line at the ingress port with `PENDING` empty, an
egress frame at the head of `PENDING` with the host ready for it; and no RESET, STOP or host action in the way. Assumption 9. -/
def placeTableFrame (port : Port) (frame : List Byte) (s : State) : State :=
  match port with
  | .ingress =>
      { s with
        ingress := frame :: s.ingress
        pending := []
        runState := runRunning
        resetLevel := false
        stopLevel := false
        host := [] }
  | .egress =>
      { s with
        pending := [.tx frame]
        egressReady := true
        runState := runRunning
        resetLevel := false
        stopLevel := false
        host := [] }

end Sys2Proof.Machine
end

