-- ==== Sys2Proof/Machine/ProcessFrame.lean ====
section
/-! DEFINITION. ProcessFrame and the accept step, by the pseudocode of 43_dispatch.md R210 to R212. The step runs the decoded
instruction's arm instead; that the two agree on every frame is an obligation (R228). -/

namespace Sys2Proof.Machine

/-- The body of ProcessFrame, with `raise Drop(code)` as an error (R211). -/
def dispatchPath (idMac : Mac) (idIp : Ip) (m : Ifb) : Except Reject (Disposition × List OutItem) := do
  let eth ← decodeEthernet m m.length
  if eth.etherType = etherArp then
    let arp ← decodeArp m 14 (m.length - 14)
    if arp.opcode ≠ 1#16 then return (.arpNotRequest, [])
    else
      let outs := [.ev (.arpRequestObserved arp)]
      match handle idMac idIp arp with
      | none => return (.arpRequestNoMatch, outs)
      | some intent =>
          let outs := outs ++ [.tx (encodeArpReply intent.replyTargetMac intent.replyTargetIp intent.replySenderMac
            intent.replySenderIp)]
          return (.arpReplied, outs ++ [.ev (.arpReplySent intent)])
  else if eth.etherType = etherIpv4 then
    let ip ← decodeIpv4 m 14 (m.length - 14)
    if ip.protocol ≠ 17#8 then return (.ipv4NotUdp, [])
    else
      let udp ← decodeUdp m (14 + ip.hl) (m.length - 14 - ip.hl)
      return (.udpReported, [.ev (.udpPacketObserved ip.srcIp udp.srcPort ip.dstIp udp.dstPort udp.payload)])
  else return (.ethertypeUnsupported, [])

/-- ProcessFrame with its drop handling (R211, R212); the only error left is a bound violation. -/
def processFrame (report : Bool) (idMac : Mac) (idIp : Ip) (m : Ifb) : Except Reject (Disposition × List OutItem) :=
  match dispatchPath idMac idIp m with
  | .error (.drop code) => .ok (code, dropOutputs report code)
  | .error e => .error e
  | .ok r => .ok r

/-- `Accept(F)` (R210). -/
def acceptFrame (frame : List Byte) (s : State) : Host.Outcome State Fault Refusal :=
  match processFrame Config.reportMalformed s.idMac s.idIp (loadIfb frame) with
  | .ok r => accept r.1 r.2 s
  | .error _ => .fault .boundViolation

end Sys2Proof.Machine
end

