-- ==== Sys2Proof/Machine/Step.lean ====
section
/-! DEFINITION. One step: a host interaction, or one step of the NFB. At most one fires at a time (60_exceptions.md R276). -/

namespace Sys2Proof.Machine

/-- Carry out the NFB's turn. -/
def runTurn (s : State) (t : Turn) : Host.Outcome State Fault Refusal :=
  match t with
  | .hold => .next s
  | .stop s' => .next s'.seeStop
  | .emit item s' => emitItem item s'
  | .run i s' => exec i s'
  | .violation => .fault .boundViolation

/-- One step of the NFB in `s`. -/
def nfbStep (s : State) : Host.Outcome State Fault Refusal := runTurn s (nfbTurn s)

/-- One step of the model: the host's next action, or the NFB's turn when the host waits or does nothing more. -/
def step (s : State) : Host.Outcome State Fault Refusal :=
  guarded s
    (match s.host with
    | [] => nfbStep s
    | .wait :: rest => nfbStep { s with host := rest }
    | a :: rest => .next (hostStep a { s with host := rest }))

/-- The state in which the next step fetches the instruction of this table word. -/
def State.withFetchWord (s : State) (nbits w : Nat) : State :=
  placeTableFrame (tablePort nbits) (tableFrame nbits w) s

end Sys2Proof.Machine
end

