-- ==== Sys2Proof/Safety.lean ====
section
/-! DEFINITION. The terms claims use: when a step is enabled, what holds of the machine at every moment of a run, and when a run is
over. -/

namespace Sys2Proof.Machine

/-! ## When a step is enabled -/

/-- The accept step is enabled and a frame is offered (43_dispatch.md R210). -/
def CanAccept (s : State) : Prop :=
  s.resetLevel = false ∧ s.runState = runRunning ∧ s.pending = [] ∧ s.ingress ≠ []

/-- The emit step of `item`, the head of `PENDING`, is enabled (R214); `PENDING` holds no more than it may (R42) and no reserved
code (R272). -/
def CanEmit (s : State) (item : OutItem) : Prop :=
  s.resetLevel = false ∧ (s.runState = runRunning ∨ s.runState = runStopping) ∧ s.pending.head? = some item
    ∧ s.portReady item = true ∧ s.pending.length ≤ 3 ∧ s.pending.any itemReserved = false

/-- The state the NFB steps from when the turn is its own: the host has nothing more to do, or waits. -/
def State.nfbState (s : State) : Option State :=
  match s.host with
  | [] => some s
  | .wait :: rest => some { s with host := rest }
  | .offer _ :: _ => none
  | .withdraw _ :: _ => none
  | .egressReady _ :: _ => none
  | .eventReady _ :: _ => none
  | .stop _ :: _ => none
  | .reset _ :: _ => none
  | .config _ _ :: _ => none

/-! ## Classes of frames, in the words of 30_encoding.md R99 -/

/-- The frame has this `etherType` (R90). -/
def HasEtherType (m : Ifb) (e : U16) : Prop := readU16 m 12 = .ok e

/-- "ARP format valid" (R99), with the opcode. -/
def ArpFormatValid (m : Ifb) (opcode : U16) : Prop :=
  HasEtherType m etherArp ∧ 42 ≤ m.length ∧ readU16 m 14 = .ok 1#16 ∧ readU16 m 16 = .ok 0x0800#16
    ∧ readU8 m 18 = .ok 6#8 ∧ readU8 m 19 = .ok 4#8 ∧ readU16 m 20 = .ok opcode

/-- "IPv4 valid" (R99), with the first header byte and the protocol. -/
def Ipv4Valid (m : Ifb) (versionIhl protocol : U8) : Prop :=
  HasEtherType m etherIpv4 ∧ 34 ≤ m.length ∧ readU8 m 14 = .ok versionIhl ∧ 5 ≤ (ihlOf versionIhl).toNat
    ∧ 14 + 4 * (ihlOf versionIhl).toNat ≤ m.length ∧ readU8 m 23 = .ok protocol

/-! ## What holds at every moment of a run -/

/-- The lists `PENDING` can be: a suffix of the output items of one frame, handled with this identity (R42, R211, R212, R213). -/
def PendingShape (idMac : Mac) (idIp : Ip) : List OutItem → Prop
  | [] => True
  | [.ev (.arpRequestObserved arp)] =>
      arpFormatSupported arp.hwType arp.protoType arp.hwLen arp.protoLen = true ∧ arp.opcode = 1#16 ∧ arp.targetIp ≠ idIp
  | [.ev (.arpRequestObserved arp), .tx frame, .ev (.arpReplySent intent)] =>
      arpFormatSupported arp.hwType arp.protoType arp.hwLen arp.protoLen = true ∧ arp.opcode = 1#16 ∧ arp.targetIp = idIp
        ∧ intent = ⟨arp.senderMac, arp.senderIp, idMac, idIp⟩ ∧ frame = encodeIntent intent
  | [.tx frame, .ev (.arpReplySent intent)] =>
      intent.replySenderMac = idMac ∧ intent.replySenderIp = idIp ∧ frame = encodeIntent intent
  | [.ev (.arpReplySent intent)] => intent.replySenderMac = idMac ∧ intent.replySenderIp = idIp
  | [.ev (.udpPacketObserved _ _ _ _ payload)] => payload.length ≤ 2006
  | [.ev (.decodeError code)] => Config.reportMalformed = true ∧ 9 ≤ code.toNat ∧ code.toNat ≤ 14
  | _ => False

/-- Every `ArpReplySent` that has left came directly after the reply frame of its intent (R253, R255). -/
def SentAfterReply (observed : List OutItem) : Prop :=
  ∀ before intent after, observed = before ++ .ev (.arpReplySent intent) :: after →
    before.getLast? = some (.tx (encodeIntent intent))

/-- Every egress frame that has left is a reply of the encoder (R34, R170). -/
def OnlyReplies (observed : List OutItem) : Prop :=
  ∀ frame, .tx frame ∈ observed → ∃ intent, frame = encodeIntent intent

/-- What holds of the machine at every moment of a run. -/
structure State.Inv (s : State) : Prop where
  /-- `0b11` is never entered (R41). -/
  runLegal : s.runState ≠ runIllegal
  /-- In STOPPED, `PENDING` is empty (R319). -/
  stoppedEmpty : s.runState = runStopped → s.pending = []
  /-- STOPPING lasts only while `PENDING` is not empty (R316, R317). -/
  stoppingBusy : s.runState = runStopping → s.pending ≠ []
  /-- While RESET is asserted nothing is pending (R313), and `RUN_STATE` reads RUNNING, which is the model's reading (assumption 6). -/
  resetEmpty : s.resetLevel = true → s.pending = [] ∧ s.runState = runRunning
  /-- `PENDING` is what is left of one frame's output items, under the present identity. -/
  pendingShape : PendingShape s.idMac s.idIp s.pending
  /-- An `ArpReplySent` alone in `PENDING` follows the reply that has just left (R253). -/
  sentPending : ∀ intent, s.pending = [.ev (.arpReplySent intent)] → s.observed.getLast? = some (.tx (encodeIntent intent))
  /-- The same of the events that have left. -/
  sentAfterReply : SentAfterReply s.observed
  /-- The egress port carries nothing but replies. -/
  onlyReplies : OnlyReplies s.observed

/-! ## The end of a run -/

/-- A run is over: STOPPED, or RUNNING with nothing pending and no further frame (R329). A state that shows a model fault is never
final (R281). DESIGN CHOICE: RESET is not asked for, so while it is asserted the second case is read with the RUNNING that the model
gives `RUN_STATE` there; R41 and R329 give it no value under RESET (assumption 6). -/
def RunOver (s : State) : Prop :=
  s.modelFault = none
    ∧ (s.runState = runStopped
      ∨ (s.runState = runRunning ∧ s.pending = [] ∧ s.ingress = [] ∧ ∀ a ∈ s.host, ∀ frame, a ≠ .offer frame))

/-- The NFB holds: an item is pending and the host does not accept the head (R323). -/
def Held (s : State) : Prop :=
  ∃ item rest, s.pending = item :: rest ∧ s.portReady item = false

/-- The event port carries an event in the layout `EVENT_ENCODING` gives (R12, R35). -/
def eventPortBits (e : Event) : List Bool := Config.eventEncoding e

end Sys2Proof.Machine
end

