-- ==== Sys2Proof/Certificates/Slice0/Obligations.lean ====
section
/-! DEFINITION. The statements for the provers. Each docstring names the rules of spec/ it formalises. Where a statement rests on a
choice of the model, its docstring names the log entry. -/

open Sys2Proof Sys2Proof.Machine

/-! ## The thirteen dispatch arms and the egress format

The first part of each says which frames are of the class, and what the decode that decides raises or gives; the second says what the
arm does from every state in which the accept step is enabled, for all operands. The trace is the model's record of dispositions
(R273). -/

/-- R215. -/
def Obligations.EthRuntIsDroppedSilently : Prop :=
  (∀ (idIp : Ip) (F : List Byte), (loadIfb F).length < 14 →
    decodeEthernet (loadIfb F) (loadIfb F).length = .error (.drop .malformedEth)
      ∧ decode idIp .ingress F = .ok (.ethRunt F))
  ∧ ∀ (s : State) (bytes : List Byte), CanAccept s →
    exec (.ethRunt bytes) s
      = .next { s with pending := [], ingress := s.ingress.tail, trace := s.trace ++ [.malformedEth] }

/-- R216. -/
def Obligations.ArpShortIsDropped : Prop :=
  (∀ (idIp : Ip) (F : List Byte), HasEtherType (loadIfb F) etherArp → (loadIfb F).length < 42 →
    decodeArp (loadIfb F) 14 ((loadIfb F).length - 14) = .error (.drop .malformedArpShort)
      ∧ ∃ dst src, decode idIp .ingress F = .ok (.arpShort dst src (F.drop 14)))
  ∧ ∀ (s : State) (dst src : Mac) (body : List Byte), CanAccept s →
    exec (.arpShort dst src body) s
      = .next { s with
          pending := if Config.reportMalformed then [.ev (.decodeError 9)] else []
          ingress := s.ingress.tail
          trace := s.trace ++ [.malformedArpShort] }

/-- R217. -/
def Obligations.ArpBadFormatIsDropped : Prop :=
  (∀ (idIp : Ip) (F : List Byte) (hwType protoType : U16) (hwLen protoLen : U8),
    HasEtherType (loadIfb F) etherArp → 42 ≤ (loadIfb F).length →
    readU16 (loadIfb F) 14 = .ok hwType → readU16 (loadIfb F) 16 = .ok protoType →
    readU8 (loadIfb F) 18 = .ok hwLen → readU8 (loadIfb F) 19 = .ok protoLen →
    ¬ (hwType = 1 ∧ protoType = 0x0800 ∧ hwLen = 6 ∧ protoLen = 4) →
    decodeArp (loadIfb F) 14 ((loadIfb F).length - 14) = .error (.drop .malformedArpFormat)
      ∧ ∃ dst src, decode idIp .ingress F
          = .ok (.arpBadfmt dst src hwType protoType hwLen protoLen ((loadIfb F).drop 20)))
  ∧ ∀ (s : State) (dst src : Mac) (hwType protoType : U16) (hwLen protoLen : U8) (rest : List Byte), CanAccept s →
    exec (.arpBadfmt dst src hwType protoType hwLen protoLen rest) s
      = .next { s with
          pending := if Config.reportMalformed then [.ev (.decodeError 10)] else []
          ingress := s.ingress.tail
          trace := s.trace ++ [.malformedArpFormat] }

/-- R218. -/
def Obligations.MatchedArpRequestIsAnswered : Prop :=
  (∀ (idIp : Ip) (F : List Byte) (sha tha : Mac) (spa : Ip), ArpFormatValid (loadIfb F) 1 →
    readMac (loadIfb F) 22 = .ok sha → readIp (loadIfb F) 28 = .ok spa → readMac (loadIfb F) 32 = .ok tha →
    readIp (loadIfb F) 38 = .ok idIp →
    ∃ dst src, decode idIp .ingress F = .ok (.arpReqMatch dst src sha spa tha idIp ((loadIfb F).drop 42)))
  ∧ ∀ (s : State) (dst src sha tha : Mac) (spa : Ip) (trailer : List Byte), CanAccept s →
    exec (.arpReqMatch dst src sha spa tha s.idIp trailer) s
      = .next { s with
          pending :=
            [ .ev (.arpRequestObserved ⟨1, 0x0800, 6, 4, 1, sha, spa, tha, s.idIp⟩)
            , .tx (encodeArpReply sha spa s.idMac s.idIp)
            , .ev (.arpReplySent ⟨sha, spa, s.idMac, s.idIp⟩) ]
          ingress := s.ingress.tail
          trace := s.trace ++ [.arpReplied] }

/-- R219. -/
def Obligations.OtherArpRequestIsObservedOnly : Prop :=
  (∀ (idIp : Ip) (F : List Byte) (sha tha : Mac) (spa tpa : Ip), ArpFormatValid (loadIfb F) 1 →
    readMac (loadIfb F) 22 = .ok sha → readIp (loadIfb F) 28 = .ok spa → readMac (loadIfb F) 32 = .ok tha →
    readIp (loadIfb F) 38 = .ok tpa → tpa ≠ idIp →
    ∃ dst src, decode idIp .ingress F = .ok (.arpReqOther dst src sha spa tha tpa ((loadIfb F).drop 42)))
  ∧ ∀ (s : State) (dst src sha tha : Mac) (spa tpa : Ip) (trailer : List Byte), CanAccept s → tpa ≠ s.idIp →
    exec (.arpReqOther dst src sha spa tha tpa trailer) s
      = .next { s with
          pending := [.ev (.arpRequestObserved ⟨1, 0x0800, 6, 4, 1, sha, spa, tha, tpa⟩)]
          ingress := s.ingress.tail
          trace := s.trace ++ [.arpRequestNoMatch] }

/-- R195: whichever of the two request arms runs, and whatever it is given, a request for another address is never answered, and one
for `ID_IP` always is. -/
def Obligations.RequestArmsAnswerForTheIdentityOnly : Prop :=
  ∀ (s : State) (dst src sha tha : Mac) (spa tpa : Ip) (trailer : List Byte) (i : Instr), CanAccept s →
    i = .arpReqMatch dst src sha spa tha tpa trailer ∨ i = .arpReqOther dst src sha spa tha tpa trailer →
    ∃ t, exec i s = .next t ∧ ((∃ frame, .tx frame ∈ t.pending) ↔ tpa = s.idIp)

/-- R220. -/
def Obligations.ArpNonRequestIsIgnored : Prop :=
  (∀ (idIp : Ip) (F : List Byte) (opcode : U16), ArpFormatValid (loadIfb F) opcode → opcode ≠ 1 →
    ∃ dst src sha spa tha tpa, decode idIp .ingress F
      = .ok (.arpNonreq dst src opcode sha spa tha tpa ((loadIfb F).drop 42)))
  ∧ ∀ (s : State) (dst src : Mac) (opcode : U16) (sha tha : Mac) (spa tpa : Ip) (trailer : List Byte), CanAccept s →
    exec (.arpNonreq dst src opcode sha spa tha tpa trailer) s
      = .next { s with pending := [], ingress := s.ingress.tail, trace := s.trace ++ [.arpNotRequest] }

/-- R221. -/
def Obligations.Ipv4ShortIsDropped : Prop :=
  (∀ (idIp : Ip) (F : List Byte), HasEtherType (loadIfb F) etherIpv4 → (loadIfb F).length < 34 →
    decodeIpv4 (loadIfb F) 14 ((loadIfb F).length - 14) = .error (.drop .malformedIpv4Short)
      ∧ ∃ dst src, decode idIp .ingress F = .ok (.ipv4Short dst src (F.drop 14)))
  ∧ ∀ (s : State) (dst src : Mac) (body : List Byte), CanAccept s →
    exec (.ipv4Short dst src body) s
      = .next { s with
          pending := if Config.reportMalformed then [.ev (.decodeError 11)] else []
          ingress := s.ingress.tail
          trace := s.trace ++ [.malformedIpv4Short] }

/-- R222. -/
def Obligations.Ipv4BadIhlIsDropped : Prop :=
  (∀ (idIp : Ip) (F : List Byte) (b : U8), HasEtherType (loadIfb F) etherIpv4 → 34 ≤ (loadIfb F).length →
    readU8 (loadIfb F) 14 = .ok b → (ihlOf b).toNat < 5 →
    decodeIpv4 (loadIfb F) 14 ((loadIfb F).length - 14) = .error (.drop .malformedIpv4Ihl)
      ∧ ∃ dst src, decode idIp .ingress F
          = .ok (.ipv4Badihl dst src (versionOf b) (ihlOf b) ((loadIfb F).drop 15)))
  ∧ ∀ (s : State) (dst src : Mac) (version ihl : BitVec 4) (rest : List Byte), CanAccept s →
    exec (.ipv4Badihl dst src version ihl rest) s
      = .next { s with
          pending := if Config.reportMalformed then [.ev (.decodeError 12)] else []
          ingress := s.ingress.tail
          trace := s.trace ++ [.malformedIpv4Ihl] }

/-- R223. -/
def Obligations.Ipv4TruncatedIsDropped : Prop :=
  (∀ (idIp : Ip) (F : List Byte) (b : U8), HasEtherType (loadIfb F) etherIpv4 → 34 ≤ (loadIfb F).length →
    readU8 (loadIfb F) 14 = .ok b → 5 ≤ (ihlOf b).toNat → (loadIfb F).length < 14 + 4 * (ihlOf b).toNat →
    decodeIpv4 (loadIfb F) 14 ((loadIfb F).length - 14) = .error (.drop .malformedIpv4Trunc)
      ∧ ∃ dst src, decode idIp .ingress F
          = .ok (.ipv4Trunc dst src (versionOf b) (ihlOf b) ((loadIfb F).drop 15)))
  ∧ ∀ (s : State) (dst src : Mac) (version ihl : BitVec 4) (rest : List Byte), CanAccept s →
    exec (.ipv4Trunc dst src version ihl rest) s
      = .next { s with
          pending := if Config.reportMalformed then [.ev (.decodeError 13)] else []
          ingress := s.ingress.tail
          trace := s.trace ++ [.malformedIpv4Trunc] }

/-- R224. The offset of `protocol` is the spec's general knowledge (R92, assumption 11). -/
def Obligations.Ipv4NonUdpIsIgnored : Prop :=
  (∀ (idIp : Ip) (F : List Byte) (b protocol : U8), Ipv4Valid (loadIfb F) b protocol → protocol ≠ 17 →
    ∃ dst src ip, decode idIp .ingress F
        = .ok (.ipv4Nonudp dst src ip ((loadIfb F).drop (14 + 4 * (ihlOf b).toNat))) ∧ ip.protocol = protocol)
  ∧ ∀ (s : State) (dst src : Mac) (ip : Ipv4Fields) (payload : List Byte), CanAccept s →
    exec (.ipv4Nonudp dst src ip payload) s
      = .next { s with pending := [], ingress := s.ingress.tail, trace := s.trace ++ [.ipv4NotUdp] }

/-- R225. The offset of `protocol` is the spec's general knowledge (R92, assumption 11). -/
def Obligations.UdpShortIsDropped : Prop :=
  (∀ (idIp : Ip) (F : List Byte) (b : U8), Ipv4Valid (loadIfb F) b 17 →
    (loadIfb F).length - 14 - 4 * (ihlOf b).toNat < 8 →
    decodeUdp (loadIfb F) (14 + 4 * (ihlOf b).toNat) ((loadIfb F).length - 14 - 4 * (ihlOf b).toNat)
        = .error (.drop .malformedUdpShort)
      ∧ ∃ dst src ip, decode idIp .ingress F
          = .ok (.udpShort dst src ip ((loadIfb F).drop (14 + 4 * (ihlOf b).toNat))))
  ∧ ∀ (s : State) (dst src : Mac) (ip : Ipv4Fields) (payload : List Byte), CanAccept s →
    exec (.udpShort dst src ip payload) s
      = .next { s with
          pending := if Config.reportMalformed then [.ev (.decodeError 14)] else []
          ingress := s.ingress.tail
          trace := s.trace ++ [.malformedUdpShort] }

/-- R226, R254. The payload is written with a truncated subtraction and a `take`: `udpLength - 8` bytes, none when that is negative,
and no more than are there (R155). The offsets of `protocol`, `srcIp` and `dstIp` are the spec's general knowledge (R92, assumption
11). -/
def Obligations.UdpDatagramIsReported : Prop :=
  (∀ (idIp : Ip) (F : List Byte) (b : U8) (srcIp dstIp : Ip) (srcPort dstPort length : U16),
    Ipv4Valid (loadIfb F) b 17 → 8 ≤ (loadIfb F).length - 14 - 4 * (ihlOf b).toNat →
    readIp (loadIfb F) 26 = .ok srcIp → readIp (loadIfb F) 30 = .ok dstIp →
    readU16 (loadIfb F) (14 + 4 * (ihlOf b).toNat) = .ok srcPort →
    readU16 (loadIfb F) (14 + 4 * (ihlOf b).toNat + 2) = .ok dstPort →
    readU16 (loadIfb F) (14 + 4 * (ihlOf b).toNat + 4) = .ok length →
    ∃ dst src ip udp, decode idIp .ingress F
        = .ok (.ipv4Udp dst src ip udp ((loadIfb F).drop (14 + 4 * (ihlOf b).toNat + 8)))
      ∧ ip.srcIp = srcIp ∧ ip.dstIp = dstIp ∧ udp.srcPort = srcPort ∧ udp.dstPort = dstPort ∧ udp.length = length)
  ∧ ∀ (s : State) (dst src : Mac) (ip : Ipv4Fields) (udp : UdpFields) (data : List Byte), CanAccept s →
    exec (.ipv4Udp dst src ip udp data) s
      = .next { s with
          pending := [.ev (.udpPacketObserved ip.srcIp udp.srcPort ip.dstIp udp.dstPort (data.take (udp.length.toNat - 8)))]
          ingress := s.ingress.tail
          trace := s.trace ++ [.udpReported] }

/-- R227. -/
def Obligations.OtherEtherTypeIsIgnored : Prop :=
  (∀ (idIp : Ip) (F : List Byte) (e : U16), 14 ≤ (loadIfb F).length → HasEtherType (loadIfb F) e →
    e ≠ 0x0806 → e ≠ 0x0800 → ∃ dst src, decode idIp .ingress F = .ok (.ethOther dst src e ((loadIfb F).drop 14)))
  ∧ ∀ (s : State) (dst src : Mac) (e : U16) (payload : List Byte), CanAccept s →
    exec (.ethOther dst src e payload) s
      = .next { s with pending := [], ingress := s.ingress.tail, trace := s.trace ++ [.ethertypeUnsupported] }

/-- The egress row TX_ARP_REPLY, which the model runs as the emit step of a reply (assumption 8): the frame R171 builds leaves
through the egress port and is removed from `PENDING` (R214); in STOPPING, the step that empties `PENDING` ends in STOPPED (R317). -/
def Obligations.ReplyFrameLeaves : Prop :=
  ∀ (s : State) (tm sm : Mac) (ti si : Ip), CanEmit s (.tx (encodeArpReply tm ti sm si)) →
    exec (.txArpReply tm ti sm si) s
      = .next { s with
          pending := s.pending.tail
          observed := s.observed ++ [.tx (encodeArpReply tm ti sm si)]
          runState := if s.runState = runStopping ∧ s.pending.tail = [] then runStopped else s.runState }

/-! ## Encodings -/

/-- Decode and encode agree: no field of any instruction is dropped (R90 to R95, R99). -/
def Obligations.DecodingAnEncodedInstructionGivesItBack : Prop :=
  ∀ (idIp : Ip) (i : Instr), i.wf idIp = true → decode idIp i.port (encode i) = .ok i

/-- The other direction: an instruction the decoder gives stands for exactly the bytes it was read from (past offset 2047 on the
ingress port they are discarded, R61), and is well-formed. -/
def Obligations.EncodingADecodedFrameGivesItBack : Prop :=
  ∀ (idIp : Ip) (i : Instr) (F : List Byte),
    (decode idIp .ingress F = .ok i → encode i = F.take 2048 ∧ i.port = .ingress ∧ i.wf idIp = true)
    ∧ (decode idIp .egress F = .ok i → encode i = F ∧ i.port = .egress ∧ i.wf idIp = true)

/-- R98, R99, R101: every frame is decoded, and the class of the instruction is that of the first row of the classification table
that selects the frame. -/
def Obligations.EveryFrameIsDecodedToItsTableClass : Prop :=
  ∀ (idIp : Ip) (F : List Byte),
    ∃ i c, decode idIp .ingress F = .ok i ∧ i.frameClass = some c ∧ classify idIp (loadIfb F) = some c

/-- R95, R171 (the spec marks their offsets as derived) and R172: the writes of `encodeArpReply` lay the reply out as R95 gives it, 60
bytes. -/
def Obligations.ReplyIsLaidOutAsTheFormatSays : Prop :=
  ∀ (tm sm : Mac) (ti si : Ip),
    encodeArpReply tm ti sm si
      = macBytes tm ++ macBytes sm ++ [0x08, 0x06, 0x00, 0x01, 0x08, 0x00, 0x06, 0x04, 0x00, 0x02] ++ macBytes sm
        ++ ipBytes si ++ macBytes tm ++ ipBytes ti ++ List.replicate 18 0
    ∧ (encodeArpReply tm ti sm si).length = 60

/-- R175, which the spec marks as derived. -/
def Obligations.ReplyDecodesBackAndIsIgnored : Prop :=
  ∀ (idIp : Ip) (M1 M2 : Mac) (IP1 IP2 : Ip),
    decodeEthernet (encodeArpReply M1 IP1 M2 IP2) 60 = .ok ⟨M1, M2, 0x0806, 14, 46⟩
    ∧ decodeArp (encodeArpReply M1 IP1 M2 IP2) 14 46 = .ok ⟨1, 0x0800, 6, 4, 2, M2, IP2, M1, IP1⟩
    ∧ decode idIp .ingress (encodeArpReply M1 IP1 M2 IP2)
        = .ok (.arpNonreq M1 M2 2 M2 IP2 M1 IP1 (List.replicate 18 0))
    ∧ decode idIp .egress (encodeArpReply M1 IP1 M2 IP2) = .ok (.txArpReply M1 IP1 M2 IP2)
    ∧ ∀ s, CanAccept s → exec (.arpNonreq M1 M2 2 M2 IP2 M1 IP1 (List.replicate 18 0)) s
        = .next { s with pending := [], ingress := s.ingress.tail, trace := s.trace ++ [.arpNotRequest] }

/-- Four frames written out from the layouts: a 13-byte runt, scenario 1's request cut to 41 bytes, the whole request with `hwType = 6`,
and the whole request as it is, decoded for the identity 10.0.2.2 and for 10.0.2.3. -/
def Obligations.SampleFramesDecode : Prop :=
  decode 0x0a000202 .ingress [0xff, 0xff, 0xff, 0xff, 0xff, 0xff, 0xaa, 0xbb, 0xcc, 0xdd, 0xee, 0xff, 0x08]
    = .ok (.ethRunt [0xff, 0xff, 0xff, 0xff, 0xff, 0xff, 0xaa, 0xbb, 0xcc, 0xdd, 0xee, 0xff, 0x08])
  ∧ decode 0x0a000202 .ingress [0xff, 0xff, 0xff, 0xff, 0xff, 0xff, 0xaa, 0xbb, 0xcc, 0xdd, 0xee, 0xff, 0x08, 0x06, 0x00, 0x01,
      0x08, 0x00, 0x06, 0x04, 0x00, 0x01, 0xaa, 0xbb, 0xcc, 0xdd, 0xee, 0xff, 0x0a, 0x00, 0x02, 0x0f,
      0x00, 0x00, 0x00, 0x00, 0x00, 0x00, 0x0a, 0x00, 0x02]
    = .ok (.arpShort 0xffffffffffff 0xaabbccddeeff [0x00, 0x01, 0x08, 0x00, 0x06, 0x04, 0x00, 0x01, 0xaa, 0xbb, 0xcc, 0xdd, 0xee, 0xff,
        0x0a, 0x00, 0x02, 0x0f, 0x00, 0x00, 0x00, 0x00, 0x00, 0x00, 0x0a, 0x00, 0x02])
  ∧ decode 0x0a000202 .ingress [0xff, 0xff, 0xff, 0xff, 0xff, 0xff, 0xaa, 0xbb, 0xcc, 0xdd, 0xee, 0xff, 0x08, 0x06, 0x00, 0x06,
      0x08, 0x00, 0x06, 0x04, 0x00, 0x01, 0xaa, 0xbb, 0xcc, 0xdd, 0xee, 0xff, 0x0a, 0x00, 0x02, 0x0f,
      0x00, 0x00, 0x00, 0x00, 0x00, 0x00, 0x0a, 0x00, 0x02, 0x02]
    = .ok (.arpBadfmt 0xffffffffffff 0xaabbccddeeff 6 0x0800 6 4 [0x00, 0x01, 0xaa, 0xbb, 0xcc, 0xdd, 0xee, 0xff, 0x0a, 0x00, 0x02,
        0x0f, 0x00, 0x00, 0x00, 0x00, 0x00, 0x00, 0x0a, 0x00, 0x02, 0x02])
  ∧ decode 0x0a000202 .ingress [0xff, 0xff, 0xff, 0xff, 0xff, 0xff, 0xaa, 0xbb, 0xcc, 0xdd, 0xee, 0xff, 0x08, 0x06, 0x00, 0x01,
      0x08, 0x00, 0x06, 0x04, 0x00, 0x01, 0xaa, 0xbb, 0xcc, 0xdd, 0xee, 0xff, 0x0a, 0x00, 0x02, 0x0f,
      0x00, 0x00, 0x00, 0x00, 0x00, 0x00, 0x0a, 0x00, 0x02, 0x02]
    = .ok (.arpReqMatch 0xffffffffffff 0xaabbccddeeff 0xaabbccddeeff 0x0a00020f 0 0x0a000202 [])
  ∧ decode 0x0a000203 .ingress [0xff, 0xff, 0xff, 0xff, 0xff, 0xff, 0xaa, 0xbb, 0xcc, 0xdd, 0xee, 0xff, 0x08, 0x06, 0x00, 0x01,
      0x08, 0x00, 0x06, 0x04, 0x00, 0x01, 0xaa, 0xbb, 0xcc, 0xdd, 0xee, 0xff, 0x0a, 0x00, 0x02, 0x0f,
      0x00, 0x00, 0x00, 0x00, 0x00, 0x00, 0x0a, 0x00, 0x02, 0x02]
    = .ok (.arpReqOther 0xffffffffffff 0xaabbccddeeff 0xaabbccddeeff 0x0a00020f 0 0x0a000202 [])

/-! ## Frame buffers, decodes and the responder -/

/-- R17, R64, R65, R67: a read past `L` is a bound violation and no other read is, and a field is big-endian. -/
def Obligations.ReadsAreBoundedAndBigEndian : Prop :=
  (∀ (w : Nat) (m : Ifb) (a n : Nat), memRead w m a n = .error .boundViolation ↔ m.length < a + n)
  ∧ (∀ (pre post : List Byte) (b0 b1 : Byte), readU16 (pre ++ [b0, b1] ++ post) pre.length = .ok (b0 ++ b1))
  ∧ (∀ (pre post : List Byte) (b0 b1 b2 b3 : Byte),
      readIp (pre ++ [b0, b1, b2, b3] ++ post) pre.length = .ok (b0 ++ b1 ++ b2 ++ b3))
  ∧ (∀ (pre post : List Byte) (b0 b1 b2 b3 b4 b5 : Byte),
      readMac (pre ++ [b0, b1, b2, b3, b4, b5] ++ post) pre.length = .ok (b0 ++ b1 ++ b2 ++ b3 ++ b4 ++ b5))

/-- R17, R62: a write inside `EFB` sets exactly its bytes, most significant first, and leaves every other byte alone. -/
def Obligations.WritesChangeTheirBytesOnly : Prop :=
  ∀ (m : Efb) (a n v k : Nat), m.length = 60 → a + n ≤ 60 → k < 60 →
    (memWrite a n v m)[k]? =
      if a ≤ k ∧ k < a + n then some (BitVec.ofNat 8 (v / 256 ^ (a + n - 1 - k))) else m[k]?

/-- R131, R133: decodeEthernet drops exactly the frames shorter than 14 bytes. -/
def Obligations.DecodeEthernetDropsRuntsOnly : Prop :=
  ∀ (m : Ifb), (m.length < 14 → decodeEthernet m m.length = .error (.drop .malformedEth))
    ∧ (14 ≤ m.length → ∃ d s e, readMac m 0 = .ok d ∧ readMac m 6 = .ok s ∧ readU16 m 12 = .ok e
        ∧ decodeEthernet m m.length = .ok ⟨d, s, e, 14, m.length - 14⟩)

/-- R139, R140: decodeArp's two drops, the length check first, under exactly their conditions. -/
def Obligations.DecodeArpDropsExactlyThese : Prop :=
  ∀ (m : Ifb) (b n : Nat), b + n = m.length →
    (decodeArp m b n = .error (.drop .malformedArpShort) ↔ n < 28)
    ∧ (decodeArp m b n = .error (.drop .malformedArpFormat) ↔
        28 ≤ n ∧ (readU16 m b ≠ .ok 1 ∨ readU16 m (b + 2) ≠ .ok 0x0800 ∨ readU8 m (b + 4) ≠ .ok 6 ∨ readU8 m (b + 5) ≠ .ok 4))
    ∧ ((∃ arp, decodeArp m b n = .ok arp) ↔
        28 ≤ n ∧ readU16 m b = .ok 1 ∧ readU16 m (b + 2) = .ok 0x0800 ∧ readU8 m (b + 4) = .ok 6 ∧ readU8 m (b + 5) = .ok 4)

/-- R145, R147: decodeIpv4's three drops, in their order, under exactly their conditions, and the record otherwise. The offsets 9, 12
and 16 are the spec's general knowledge (R92, assumption 11). -/
def Obligations.DecodeIpv4DropsExactlyThese : Prop :=
  ∀ (m : Ifb) (b n : Nat), b + n = m.length →
    (n < 20 → decodeIpv4 m b n = .error (.drop .malformedIpv4Short))
    ∧ ∀ (v : U8), 20 ≤ n → readU8 m b = .ok v →
      ((ihlOf v).toNat < 5 → decodeIpv4 m b n = .error (.drop .malformedIpv4Ihl))
      ∧ (5 ≤ (ihlOf v).toNat → n < 4 * (ihlOf v).toNat → decodeIpv4 m b n = .error (.drop .malformedIpv4Trunc))
      ∧ (5 ≤ (ihlOf v).toNat → 4 * (ihlOf v).toNat ≤ n → ∃ p src dst,
          readU8 m (b + 9) = .ok p ∧ readIp m (b + 12) = .ok src ∧ readIp m (b + 16) = .ok dst
          ∧ decodeIpv4 m b n = .ok ⟨v, 4 * (ihlOf v).toNat, p, src, dst, b + 4 * (ihlOf v).toNat, n - 4 * (ihlOf v).toNat⟩)

/-- R153, R154, R156: decodeUdp drops exactly when fewer than 8 bytes are there; the length field never drops a datagram, and the
payload is clamped. -/
def Obligations.DecodeUdpClampsItsPayload : Prop :=
  ∀ (m : Ifb) (u n : Nat), u + n = m.length →
    (decodeUdp m u n = .error (.drop .malformedUdpShort) ↔ n < 8)
    ∧ (8 ≤ n → ∃ sp dp len payload, readU16 m u = .ok sp ∧ readU16 m (u + 2) = .ok dp ∧ readU16 m (u + 4) = .ok len
        ∧ payload = (m.drop (u + 8)).take payload.length
        ∧ (payload.length : Int) = clamp ((len.toNat : Int) - 8) 0 ((n : Int) - 8)
        ∧ decodeUdp m u n = .ok ⟨sp, dp, len, payload⟩)

/-- R155, case by case. -/
def Obligations.UdpClampCases : Prop :=
  ∀ (len : U16) (n : Nat), 8 ≤ n →
    (8 ≤ len.toNat → len.toNat - 8 ≤ n - 8 → udpPayloadLength len n = len.toNat - 8)
    ∧ (8 ≤ len.toNat → n - 8 < len.toNat - 8 → udpPayloadLength len n = n - 8)
    ∧ (len.toNat < 8 → udpPayloadLength len n = 0)

/-- R191: `handle` gives an intent exactly for a request for `ID_IP`, and which one. -/
def Obligations.HandleAnswersRequestsForTheIdentity : Prop :=
  ∀ (idMac : Mac) (idIp : Ip) (r : ArpMessage) (it : ArpReplyIntent),
    handle idMac idIp r = some it ↔
      r.opcode = 1 ∧ r.targetIp = idIp ∧ it = ⟨r.senderMac, r.senderIp, idMac, idIp⟩

/-- R272: the code and the category of each of the 13 dispositions, bit 3, and no reserved code. -/
def Obligations.DispositionCodesAreTheTables : Prop :=
  (dispositionCode .arpReplied = 0 ∧ dispositionCode .arpRequestNoMatch = 1 ∧ dispositionCode .arpNotRequest = 2
    ∧ dispositionCode .udpReported = 3 ∧ dispositionCode .ipv4NotUdp = 4 ∧ dispositionCode .ethertypeUnsupported = 5
    ∧ dispositionCode .malformedEth = 8 ∧ dispositionCode .malformedArpShort = 9 ∧ dispositionCode .malformedArpFormat = 10
    ∧ dispositionCode .malformedIpv4Short = 11 ∧ dispositionCode .malformedIpv4Ihl = 12
    ∧ dispositionCode .malformedIpv4Trunc = 13 ∧ dispositionCode .malformedUdpShort = 14)
  ∧ (dispositionCategory .arpReplied = .normal ∧ dispositionCategory .arpRequestNoMatch = .normal
    ∧ dispositionCategory .arpNotRequest = .normal ∧ dispositionCategory .udpReported = .normal
    ∧ dispositionCategory .ipv4NotUdp = .unsupportedProtocol ∧ dispositionCategory .ethertypeUnsupported = .unsupportedProtocol
    ∧ dispositionCategory .malformedEth = .malformed ∧ dispositionCategory .malformedArpShort = .malformed
    ∧ dispositionCategory .malformedArpFormat = .malformed ∧ dispositionCategory .malformedIpv4Short = .malformed
    ∧ dispositionCategory .malformedIpv4Ihl = .malformed ∧ dispositionCategory .malformedIpv4Trunc = .malformed
    ∧ dispositionCategory .malformedUdpShort = .malformed)
  ∧ ∀ d, ((dispositionCode d).getLsbD 3 = true ↔ dispositionCategory d = .malformed) ∧ reservedCode (dispositionCode d) = false

/-! ## ProcessFrame -/

/-- R210, R211, R212, R228: running the decoded instruction does what `Accept(F)` does, whatever the state. -/
def Obligations.ArmsRefineProcessFrame : Prop :=
  ∀ (s : State) (F : List Byte) (i : Instr), s.modelFault = none → decode s.idIp .ingress F = .ok i → exec i s = acceptFrame F s

/-- R228, which the spec marks as derived: ProcessFrame gives one disposition for every frame, the one of the frame's class, and never a
bound violation. -/
def Obligations.ProcessFrameIsTotal : Prop :=
  ∀ (report : Bool) (idMac : Mac) (idIp : Ip) (F : List Byte), ∃ c outs,
    classify idIp (loadIfb F) = some c ∧ processFrame report idMac idIp (loadIfb F) = .ok (classDisposition c, outs)

/-- R213: at most three items, three only for a reply, at most one of them a frame. -/
def Obligations.OutputsAreBounded : Prop :=
  ∀ (report : Bool) (idMac : Mac) (idIp : Ip) (F : List Byte) (d : Disposition) (outs : List OutItem),
    processFrame report idMac idIp (loadIfb F) = .ok (d, outs) →
      (d = .arpReplied → ∃ arp intent, outs = [.ev (.arpRequestObserved arp), .tx (encodeIntent intent), .ev (.arpReplySent intent)])
      ∧ (d ≠ .arpReplied → outs.length ≤ 1 ∧ ∀ frame, .tx frame ∉ outs)

/-- R256: when a `DecodeError` is emitted, and that it is then the frame's only output. -/
def Obligations.DecodeErrorExactlyWhenReported : Prop :=
  ∀ (report : Bool) (idMac : Mac) (idIp : Ip) (F : List Byte) (d : Disposition) (outs : List OutItem),
    processFrame report idMac idIp (loadIfb F) = .ok (d, outs) →
      (report = true ∧ d ∈ [.malformedArpShort, .malformedArpFormat, .malformedIpv4Short, .malformedIpv4Ihl, .malformedIpv4Trunc,
          .malformedUdpShort] → outs = [.ev (.decodeError (dispositionCode d))])
      ∧ (¬ (report = true ∧ d ∈ [.malformedArpShort, .malformedArpFormat, .malformedIpv4Short, .malformedIpv4Ihl,
          .malformedIpv4Trunc, .malformedUdpShort]) → ∀ code, .ev (.decodeError code) ∉ outs)

/-- R91, R141, R193: two ARP frames of at least 42 bytes that agree on bytes 12 to 41 give the same result: the Ethernet addresses and
every byte after the ARP message select nothing. -/
def Obligations.ArpFramesAreDecidedByTheirMessage : Prop :=
  ∀ (report : Bool) (idMac : Mac) (idIp : Ip) (F G : List Byte),
    HasEtherType (loadIfb F) etherArp → 42 ≤ F.length → 42 ≤ G.length → (F.drop 12).take 30 = (G.drop 12).take 30 →
    processFrame report idMac idIp (loadIfb F) = processFrame report idMac idIp (loadIfb G)

/-- R93, R97: two IPv4 frames of one length that agree on the IHL nibble, the protocol, the addresses, and the bytes after the header
but for the UDP checksum, give the same result: the Ethernet addresses, the version, the total length, the fragment fields, the
checksums and the options select nothing. Frames over 2048 bytes fall under `OutputsDependOnFrameAndIdentityOnly`. The offsets of
the version, `protocol`, `srcIp` and `dstIp` are the spec's general knowledge (R92, assumption 11). -/
def Obligations.Ipv4FramesAreDecidedByTheReadFields : Prop :=
  ∀ (report : Bool) (idMac : Mac) (idIp : Ip) (F G : List Byte) (vF vG : U8),
    F.length = G.length → 34 ≤ F.length → F.length ≤ 2048 → HasEtherType F etherIpv4 → HasEtherType G etherIpv4 →
    readU8 F 14 = .ok vF → readU8 G 14 = .ok vG → ihlOf vF = ihlOf vG →
    readU8 F 23 = readU8 G 23 → (F.drop 26).take 8 = (G.drop 26).take 8 →
    (F.drop (14 + 4 * (ihlOf vF).toNat)).take 6 = (G.drop (14 + 4 * (ihlOf vF).toNat)).take 6 →
    F.drop (14 + 4 * (ihlOf vF).toNat + 8) = G.drop (14 + 4 * (ihlOf vF).toNat + 8) →
    processFrame report idMac idIp (loadIfb F) = processFrame report idMac idIp (loadIfb G)

/-- R229: the outputs of a frame depend on `IFB[0:L]` and the identity alone (and on `P_REPORT_MALFORMED`, a constant): from any two
states with one identity that can accept, and for any two frames that fill `IFB` alike, they are the same. -/
def Obligations.OutputsDependOnFrameAndIdentityOnly : Prop :=
  ∀ (s t : State) (F G : List Byte), CanAccept s → CanAccept t → s.idMac = t.idMac → s.idIp = t.idIp → loadIfb F = loadIfb G →
    ∃ i d outs, decode s.idIp .ingress F = .ok i ∧ decode t.idIp .ingress G = .ok i
      ∧ exec i s = .next { s with pending := outs, ingress := s.ingress.tail, trace := s.trace ++ [d] }
      ∧ exec i t = .next { t with pending := outs, ingress := t.ingress.tail, trace := t.trace ++ [d] }

/-! ## What an instruction leaves alone -/

/-- The frame of every instruction: the identity, the input levels, the host's script and the free-choice counter stay; the frame
offered, `PENDING`, `RUN_STATE`, and what has left change only as the accept or the emit step says. No byte-addressed memory lasts
from one step to the next (R44, R60), so there is none to state a frame of. -/
def Obligations.InstructionsLeaveTheRestAlone : Prop :=
  ∀ (i : Instr) (s t : State), exec i s = .next t →
    t.idMac = s.idMac ∧ t.idIp = s.idIp ∧ t.cfgIdMac = s.cfgIdMac ∧ t.cfgIdIp = s.cfgIdIp ∧ t.stopLevel = s.stopLevel
      ∧ t.resetLevel = s.resetLevel ∧ t.egressReady = s.egressReady ∧ t.eventReady = s.eventReady ∧ t.host = s.host
      ∧ t.draws = s.draws
      ∧ (i.port = .ingress → t.runState = s.runState ∧ t.observed = s.observed
          ∧ (t = s ∨ (t.ingress = s.ingress.tail ∧ ∃ d, t.trace = s.trace ++ [d])))
      ∧ (i.port = .egress → t.ingress = s.ingress ∧ t.trace = s.trace
          ∧ (t = s ∨ ∃ item, s.pending = item :: t.pending ∧ t.observed = s.observed ++ [item]))

/-- R210, R214, R323, R326: an instruction whose step is not enabled does nothing: the frame stays offered and the item pending. -/
def Obligations.DisabledInstructionsHold : Prop :=
  ∀ (s : State), s.modelFault = none →
    (∀ (i : Instr), i.port = .ingress → ¬ CanAccept s → exec i s = .next s)
    ∧ (∀ (tm sm : Mac) (ti si : Ip), ¬ CanEmit s (.tx (encodeArpReply tm ti sm si)) →
        exec (.txArpReply tm ti sm si) s = .next s)

/-- R281: a state that shows one of the model faults stops every step and every instruction, under the fault's name, and is never the
end of a run. Which fault a state with several gives, and that the host's own steps stop too, is the model's choice (assumption 14). -/
def Obligations.ModelFaultsStopEverything : Prop :=
  ∀ (s : State) (i : Instr),
    (s.runState = 0b11 → step s = .fault .illegalRunState ∧ exec i s = .fault .illegalRunState ∧ ¬ RunOver s)
    ∧ (s.runState ≠ 0b11 → 3 < s.pending.length → step s = .fault .pendingOverflow ∧ exec i s = .fault .pendingOverflow
        ∧ ¬ RunOver s)
    ∧ (s.runState ≠ 0b11 → s.pending.length ≤ 3 → ∀ code, .ev (.decodeError code) ∈ s.pending → code = 6 ∨ code = 7 ∨ code = 15 →
        step s = .fault .reservedDisposition ∧ exec i s = .fault .reservedDisposition ∧ ¬ RunOver s)

/-! ## Steps -/

/-- A step runs the decoded instruction: where it is the NFB's turn and a frame is offered and can be accepted, the step is `exec` of
what the decoder reads. A STOP asserted at the same time may be taken first: a free choice (R276, assumption 4). -/
def Obligations.StepRunsTheOfferedFrame : Prop :=
  ∀ (s s' : State) (F : List Byte) (rest : List (List Byte)) (i : Instr),
    s.nfbState = some s' → CanAccept s → s.ingress = F :: rest → decode s.idIp .ingress F = .ok i →
    (s.stopLevel = false → step s = exec i s')
    ∧ (s.stopLevel = true → step s =
        if Config.stopFirst s.draws then .next { s' with draws := s.draws + 1, runState := runStopped }
        else exec i { s' with draws := s.draws + 1 })

/-- The same of a reply at the head of `PENDING`: the step is `exec` of TX_ARP_REPLY with the operands the decoder reads from the frame
(assumption 8). -/
def Obligations.StepRunsTheReplyAtTheHead : Prop :=
  ∀ (s s' : State) (frame : List Byte) (i : Instr),
    s.nfbState = some s' → CanEmit s (.tx frame) → decode s.idIp .egress frame = .ok i →
    (s.stopLevel = false ∨ s.runState = runStopping → step s = exec i s')
    ∧ (s.stopLevel = true → s.runState = runRunning → step s =
        if Config.stopFirst s.draws then .next { s' with draws := s.draws + 1, runState := runStopping }
        else exec i { s' with draws := s.draws + 1 })

/-- R214, R317: the item at the head of `PENDING` leaves when the host accepts it on its port, event or frame, and no other does; in
STOPPING the step that empties `PENDING` ends in STOPPED. -/
def Obligations.HeadItemLeavesInOrder : Prop :=
  ∀ (s s' : State) (item : OutItem), s.nfbState = some s' → CanEmit s item →
    s.stopLevel = false ∨ s.runState = runStopping →
    step s = .next { s' with
      pending := s.pending.tail
      observed := s.observed ++ [item]
      runState := if s.runState = runStopping ∧ s.pending.tail = [] then runStopped else s.runState }

/-- R323: while the head of `PENDING` is not accepted, the NFB emits nothing, accepts no frame, and loses nothing. -/
def Obligations.OutputHoldKeepsEverything : Prop :=
  ∀ (s s' : State), s.nfbState = some s' → s.modelFault = none → Held s →
    ∃ t, step s = .next t ∧ t.pending = s.pending ∧ t.observed = s.observed ∧ t.ingress = s.ingress ∧ t.trace = s.trace
      ∧ (s.stopLevel = false → t = s')

/-- R322, R326: a step consumes a frame only where the accept step is enabled, one at a time and the oldest first; a frame the NFB
does not accept stays offered. -/
def Obligations.OneFrameAtATime : Prop :=
  ∀ (s s' t : State), s.nfbState = some s' → step s = .next t →
    (t.ingress = s.ingress ∧ t.trace = s.trace)
      ∨ (CanAccept s ∧ t.ingress = s.ingress.tail ∧ ∃ d, t.trace = s.trace ++ [d])

/-- R316: a STOP seen ends the run at once when nothing is pending, and starts the draining otherwise. -/
def Obligations.StopEndsOrDrainsTheRun : Prop :=
  ∀ (s s' : State), s.nfbState = some s' → s.modelFault = none → s.resetLevel = false → s.stopLevel = true →
    s.runState = runRunning → s.headReady = false → s.acceptEnabled = false →
    step s = .next { s' with runState := if s.pending = [] then runStopped else runStopping }

/-- R276: a STOP and another step enabled at the same time are taken in either order, by a free choice (assumption 4): the stop step,
or the step the NFB would take were STOP not asserted. -/
def Obligations.StopAndOtherStepInEitherOrder : Prop :=
  ∀ (s s' : State), s.nfbState = some s' → s.modelFault = none → s.stopLevel = true → s.runState = runRunning →
    s.headReady = true ∨ s.acceptEnabled = true →
    ∃ t, step { s with host := [], stopLevel := false, draws := s.draws + 1 } = .next t
      ∧ step s =
        if Config.stopFirst s.draws then
          .next { s' with draws := s.draws + 1, runState := if s.pending = [] then runStopped else runStopping }
        else .next { t with host := s'.host, stopLevel := true }

/-- R318, R230: only RESET leaves STOPPED, whatever else the host does, and in STOPPED no frame is accepted and nothing leaves. -/
def Obligations.OnlyResetLeavesStopped : Prop :=
  ∀ (s t : State), step s = .next t → s.runState = runStopped →
    (∀ level rest, s.host ≠ .reset level :: rest) → t.runState = runStopped ∧ t.observed = s.observed ∧ t.trace = s.trace

/-- R230: no frame changes the run state or the identity, and after its outputs have drained the NFB can accept again. -/
def Obligations.NoDispositionStopsTheLoop : Prop :=
  ∀ (s : State) (F : List Byte) (rest : List (List Byte)), s.host = [] → CanAccept s → s.ingress = F :: rest →
    s.stopLevel = false → s.egressReady = true → s.eventReady = true →
    ∃ n t, Sys2Proof.core.run n s = .next t ∧ n ≤ 4 ∧ t.runState = runRunning ∧ t.pending = [] ∧ t.ingress = rest
      ∧ t.idMac = s.idMac ∧ t.idIp = s.idIp ∧ t.resetLevel = false

/-- R310: while RESET is asserted the NFB takes no step. -/
def Obligations.NothingStepsUnderReset : Prop :=
  ∀ (s s' : State), s.nfbState = some s' → s.modelFault = none → s.resetLevel = true → step s = .next s'

/-- R310, R311, R312: the release of RESET takes the reset state in one step, with the identity sampled from the inputs. That `observed`
and `trace` go on across it is the model's choice (assumption 13). -/
def Obligations.ReleaseOfResetSamplesTheIdentity : Prop :=
  ∀ (s : State) (rest : List HostAction), s.modelFault = none → s.resetLevel = true → s.host = .reset false :: rest →
    step s = .next { s with
      host := rest
      resetLevel := false
      idMac := s.cfgIdMac
      idIp := s.cfgIdIp
      runState := runRunning
      pending := [] }

/-- R313: asserting RESET discards `PENDING` and ends STOPPING and STOPPED; the frames offered stay. That `RUN_STATE` then reads RUNNING
is the model's reading (assumption 6), and that `observed` and `trace` go on is its choice (assumption 13). -/
def Obligations.AssertingResetDiscardsPending : Prop :=
  ∀ (s : State) (rest : List HostAction), s.modelFault = none → s.resetLevel = false → s.host = .reset true :: rest →
    step s = .next { s with host := rest, resetLevel := true, pending := [], runState := runRunning }

/-- R312: the reset state. -/
def Obligations.ResetStateIsTheTables : Prop :=
  State.reset.idMac = Config.cfgIdMac ∧ State.reset.idIp = Config.cfgIdIp ∧ State.reset.runState = 0b00 ∧ State.reset.pending = []

/-- R38, R39, R325: the identity changes only at the release of RESET, and then to the inputs. -/
def Obligations.IdentityChangesOnlyAtReset : Prop :=
  ∀ (s t : State), step s = .next t →
    (t.idMac = s.idMac ∧ t.idIp = s.idIp)
      ∨ (s.resetLevel = true ∧ (∃ rest, s.host = .reset false :: rest) ∧ t.idMac = s.cfgIdMac ∧ t.idIp = s.cfgIdIp)

/-- R49, R325, R326: what each host interaction but RESET changes. -/
def Obligations.HostInteractionsChangeTheirPortOnly : Prop :=
  ∀ (s : State) (rest : List HostAction), s.modelFault = none →
    (∀ F, s.host = .offer F :: rest → step s = .next { s with host := rest, ingress := s.ingress ++ [F] })
    ∧ (∀ k, s.host = .withdraw k :: rest → step s = .next { s with host := rest, ingress := s.ingress.eraseIdx k })
    ∧ (∀ b, s.host = .egressReady b :: rest → step s = .next { s with host := rest, egressReady := b })
    ∧ (∀ b, s.host = .eventReady b :: rest → step s = .next { s with host := rest, eventReady := b })
    ∧ (∀ b, s.host = .stop b :: rest → step s = .next { s with host := rest, stopLevel := b })
    ∧ (∀ mac ip, s.host = .config mac ip :: rest → step s = .next { s with host := rest, cfgIdMac := mac, cfgIdIp := ip })

/-! ## What holds of every run -/

/-- Every step keeps the invariant: the run state is legal, `PENDING` is what is left of one frame's outputs under the present
identity, the egress port carries replies only, and each `ArpReplySent` leaves directly after its reply (R41, R42, R213, R253, R319). That
`RUN_STATE` is RUNNING while RESET is asserted, the field `resetEmpty`, is the model's reading (assumption 6). -/
def Obligations.EveryStepKeepsTheInvariant : Prop :=
  ∀ (s t : State), s.Inv → step s = .next t → t.Inv

/-- The reset state meets the invariant. It rests on the model's choice of what is not in R312's table: RESET is deasserted and nothing
has left yet (assumption 5). -/
def Obligations.ResetMeetsTheInvariant : Prop := State.reset.Inv

/-- R67, R228, R230, R281: from a state that meets the invariant no step faults or refuses, whatever the host does. -/
def Obligations.NoStepFaultsOrRefuses : Prop :=
  ∀ (s : State), s.Inv → ∃ t, step s = .next t

/-- R75, R76, R328: a host that is ready on both ports and asserts neither STOP nor RESET gets, within a bounded number of steps, every
offered frame accepted and all outputs, in the order of the frames, each frame's exactly those of ProcessFrame. -/
def Obligations.EveryOfferedFrameIsServedInOrder : Prop :=
  ∀ (s : State), s.Inv → s.host = [] → s.resetLevel = false → s.stopLevel = false → s.runState = runRunning →
    s.egressReady = true → s.eventReady = true →
    ∃ (results : List (Disposition × List OutItem)) (n : Nat),
      List.Forall₂ (fun F r => processFrame Config.reportMalformed s.idMac s.idIp (loadIfb F) = .ok r) s.ingress results
      ∧ n ≤ s.pending.length + 4 * s.ingress.length
      ∧ Sys2Proof.core.run n s = .next { s with
          ingress := []
          pending := []
          observed := s.observed ++ s.pending ++ (results.map Prod.snd).flatten
          trace := s.trace ++ results.map Prod.fst }

/-- R317, R319: a STOPPING NFB whose host accepts everything reaches STOPPED with all its outputs sent. -/
def Obligations.StoppingDrainsThenStops : Prop :=
  ∀ (s : State), s.Inv → s.host = [] → s.resetLevel = false → s.runState = runStopping →
    s.egressReady = true → s.eventReady = true →
    Sys2Proof.core.run s.pending.length s = .next { s with
      pending := [], observed := s.observed ++ s.pending, runState := runStopped }
end

