-- ==== Sys2Proof/Laws/Bytes.lean ====
section
/-! SUPPORT. Network byte order: `beBytes` and `beValue` undo each other (20_memory.md R64). -/

namespace Sys2Proof

@[simp] theorem beBytes_length (n v : Nat) : (beBytes n v).length = n := by
  induction n with
  | zero => rfl
  | succ n ih => simp [beBytes, ih]

theorem beValue_foldl (acc : Nat) (bs : List Byte) :
    bs.foldl (fun acc b => acc * 256 + b.toNat) acc = acc * 256 ^ bs.length + beValue bs := by
  induction bs generalizing acc with
  | nil => simp [beValue]
  | cons b bs ih =>
    simp only [List.foldl_cons, List.length_cons, beValue]
    rw [ih, ih (0 * 256 + b.toNat), pow_succ]
    ring

theorem beValue_nil : beValue [] = 0 := rfl

theorem beValue_cons (b : Byte) (bs : List Byte) : beValue (b :: bs) = b.toNat * 256 ^ bs.length + beValue bs := by
  rw [beValue, List.foldl_cons, beValue_foldl]
  ring

theorem beValue_append (as bs : List Byte) : beValue (as ++ bs) = beValue as * 256 ^ bs.length + beValue bs := by
  rw [beValue, List.foldl_append, beValue_foldl]
  rfl

theorem beValue_lt (bs : List Byte) : beValue bs < 256 ^ bs.length := by
  induction bs with
  | nil => simp [beValue_nil]
  | cons b bs ih =>
    rw [beValue_cons, List.length_cons, pow_succ]
    have hb := b.isLt
    calc b.toNat * 256 ^ bs.length + beValue bs < (b.toNat + 1) * 256 ^ bs.length := by linarith
      _ ≤ 256 ^ bs.length * 256 := by rw [mul_comm]; exact Nat.mul_le_mul_left _ hb

theorem beValue_beBytes (n v : Nat) : beValue (beBytes n v) = v % 256 ^ n := by
  induction n with
  | zero => simp [beBytes, beValue_nil, Nat.mod_one]
  | succ n ih =>
    rw [beBytes, beValue_cons, ih, beBytes_length, BitVec.toNat_ofNat]
    rw [pow_succ 256 n, Nat.mod_mul]
    ring

theorem beBytes_beValue (bs : List Byte) : beBytes bs.length (beValue bs) = bs := by
  have key : ∀ (bs : List Byte) (k : Nat), beBytes bs.length (k * 256 ^ bs.length + beValue bs) = bs := by
    intro bs
    induction bs with
    | nil => intro k; rfl
    | cons b bs ih =>
      intro k
      have hpos : 0 < 256 ^ bs.length := by positivity
      have hlt := beValue_lt bs
      rw [List.length_cons, beBytes, beValue_cons]
      have split : k * 256 ^ (bs.length + 1) + (b.toNat * 256 ^ bs.length + beValue bs)
          = (k * 256 + b.toNat) * 256 ^ bs.length + beValue bs := by ring
      rw [split, ih]
      congr 1
      rw [Nat.mul_comm, Nat.mul_add_div hpos, Nat.div_eq_of_lt hlt]
      apply BitVec.eq_of_toNat_eq
      have hb := b.isLt
      rw [BitVec.toNat_ofNat]
      omega
  simpa using key bs 0

@[simp] theorem macBytes_length (m : Mac) : (macBytes m).length = 6 := beBytes_length _ _
@[simp] theorem ipBytes_length (a : Ip) : (ipBytes a).length = 4 := beBytes_length _ _
@[simp] theorem u16Bytes_length (v : U16) : (u16Bytes v).length = 2 := beBytes_length _ _

/-- Writing a value of `8n` bits and reading it back gives it. -/
theorem ofNat_beValue_beBytes (n : Nat) (v : BitVec (8 * n)) :
    BitVec.ofNat (8 * n) (beValue (beBytes n v.toNat)) = v := by
  apply BitVec.eq_of_toNat_eq
  have h256 : (256 : Nat) ^ n = 2 ^ (8 * n) := by rw [pow_mul]; norm_num
  have hv := v.isLt
  rw [beValue_beBytes, BitVec.toNat_ofNat, h256, Nat.mod_mod, Nat.mod_eq_of_lt hv]

/-- Reading `n` bytes and writing the value gives them. -/
theorem beBytes_ofNat_beValue (bs : List Byte) (n : Nat) (h : bs.length = n) :
    beBytes n (BitVec.ofNat (8 * n) (beValue bs)).toNat = bs := by
  subst h
  have h256 : (256 : Nat) ^ bs.length = 2 ^ (8 * bs.length) := by rw [pow_mul]; norm_num
  have hlt := beValue_lt bs
  rw [BitVec.toNat_ofNat, Nat.mod_eq_of_lt (h256 ▸ hlt), beBytes_beValue]

@[simp] theorem ofNat_macBytes (m : Mac) : BitVec.ofNat 48 (beValue (macBytes m)) = m := ofNat_beValue_beBytes 6 m
@[simp] theorem ofNat_ipBytes (a : Ip) : BitVec.ofNat 32 (beValue (ipBytes a)) = a := ofNat_beValue_beBytes 4 a
@[simp] theorem ofNat_u16Bytes (v : U16) : BitVec.ofNat 16 (beValue (u16Bytes v)) = v := ofNat_beValue_beBytes 2 v
@[simp] theorem ofNat_bytes8 (v : BitVec 64) : BitVec.ofNat 64 (beValue (beBytes 8 v.toNat)) = v := ofNat_beValue_beBytes 8 v
@[simp] theorem ofNat_byte (b : Byte) : BitVec.ofNat 8 (beValue [b]) = b := by
  simp [beValue_cons, beValue_nil]

/-- A frame cut at four places is the whole. -/
theorem take_append_drop_take (m : List Byte) (a n : Nat) :
    m.take a ++ ((m.drop a).take n ++ m.drop (a + n)) = m := by
  rw [← List.drop_drop, List.take_append_drop, List.take_append_drop]

end Sys2Proof
end

