-- ==== Sys2Proof/Laws/Buffers.lean ====
section
/-! SUPPORT. The frame buffers: loading and writing keep their sizes, and a read inside the bounds gives exactly the bytes there
(20_memory.md R61, R62, R67). -/

namespace Sys2Proof

theorem loadIfb_wf (frame : List Byte) : Ifb.wf (loadIfb frame) := by
  simp [Ifb.wf, loadIfb]

theorem loadIfb_eq_of_le (frame : List Byte) (h : frame.length ≤ Config.maxFrame) : loadIfb frame = frame := by
  simp [loadIfb, List.take_of_length_le h]

theorem efbZero_wf : Efb.wf efbZero := by simp [Efb.wf, efbZero]

theorem memWrite_wf (a n v : Nat) (m : Efb) (h : Efb.wf m) (hn : a + n ≤ Config.replyFrame) : Efb.wf (memWrite a n v m) := by
  simp only [Efb.wf, memWrite, List.length_append, List.length_take, List.length_drop, beBytes_length] at *
  omega

theorem encodeArpReply_wf (tm : Mac) (ti : Ip) (sm : Mac) (si : Ip) : Efb.wf (encodeArpReply tm ti sm si) := by
  unfold encodeArpReply
  repeat' apply memWrite_wf
  exact efbZero_wf
  all_goals decide

theorem bytesAt_ok (m : Ifb) (a n : Nat) (h : a + n ≤ m.length) : bytesAt m a n = .ok ((m.drop a).take n) := by
  simp [bytesAt, h]

theorem bytesAt_violation (m : Ifb) (a n : Nat) (h : m.length < a + n) : bytesAt m a n = .error .boundViolation := by
  simp [bytesAt, Nat.not_le.mpr h]

theorem memRead_ok (w : Nat) (m : Ifb) (a n : Nat) (h : a + n ≤ m.length) :
    memRead w m a n = .ok (BitVec.ofNat w (beValue ((m.drop a).take n))) := by
  simp [memRead, bytesAt_ok m a n h]

theorem memRead_violation (w : Nat) (m : Ifb) (a n : Nat) (h : m.length < a + n) :
    memRead w m a n = .error .boundViolation := by
  simp [memRead, bytesAt_violation m a n h]

/-- A slice that starts where a part of the list ends. -/
theorem bytesAt_append (xs ys zs : List Byte) (a n : Nat) (ha : xs.length = a) (hn : ys.length = n) :
    bytesAt (xs ++ (ys ++ zs)) a n = .ok ys := by
  subst ha hn
  rw [bytesAt_ok _ _ _ (by simp)]
  simp

theorem memRead_append (w : Nat) (xs ys zs : List Byte) (a n : Nat) (ha : xs.length = a) (hn : ys.length = n) :
    memRead w (xs ++ (ys ++ zs)) a n = .ok (BitVec.ofNat w (beValue ys)) := by
  simp [memRead, bytesAt_append xs ys zs a n ha hn]

theorem bytesFrom_ok (m : Ifb) (a : Nat) (h : a ≤ m.length) : bytesFrom m a = .ok (m.drop a) := by
  rw [bytesFrom, bytesAt_ok _ _ _ (by omega), List.take_of_length_le (by simp)]

/-! ## The value of a field

The readers give these values wherever the field lies inside the frame. -/

/-- The byte at `a`. -/
def fieldU8 (m : Ifb) (a : Nat) : U8 := BitVec.ofNat 8 (beValue ((m.drop a).take 1))

/-- The 16-bit field at `a`. -/
def fieldU16 (m : Ifb) (a : Nat) : U16 := BitVec.ofNat 16 (beValue ((m.drop a).take 2))

/-- The IPv4 address at `a`. -/
def fieldIp (m : Ifb) (a : Nat) : Ip := BitVec.ofNat 32 (beValue ((m.drop a).take 4))

/-- The MAC address at `a`. -/
def fieldMac (m : Ifb) (a : Nat) : Mac := BitVec.ofNat 48 (beValue ((m.drop a).take 6))

theorem readU8_ok (m : Ifb) (a : Nat) (h : a + 1 ≤ m.length) : readU8 m a = .ok (fieldU8 m a) := memRead_ok 8 m a 1 h

theorem readU16_ok (m : Ifb) (a : Nat) (h : a + 2 ≤ m.length) : readU16 m a = .ok (fieldU16 m a) := memRead_ok 16 m a 2 h

theorem readIp_ok (m : Ifb) (a : Nat) (h : a + 4 ≤ m.length) : readIp m a = .ok (fieldIp m a) := memRead_ok 32 m a 4 h

theorem readMac_ok (m : Ifb) (a : Nat) (h : a + 6 ≤ m.length) : readMac m a = .ok (fieldMac m a) := memRead_ok 48 m a 6 h

/-! Writing a field's value gives the bytes it was read from. -/

theorem macBytes_field (m : Ifb) (a : Nat) (h : a + 6 ≤ m.length) : macBytes (fieldMac m a) = (m.drop a).take 6 :=
  beBytes_ofNat_beValue _ 6 (by simp; omega)

theorem ipBytes_field (m : Ifb) (a : Nat) (h : a + 4 ≤ m.length) : ipBytes (fieldIp m a) = (m.drop a).take 4 :=
  beBytes_ofNat_beValue _ 4 (by simp; omega)

theorem u16Bytes_field (m : Ifb) (a : Nat) (h : a + 2 ≤ m.length) : u16Bytes (fieldU16 m a) = (m.drop a).take 2 :=
  beBytes_ofNat_beValue _ 2 (by simp; omega)

theorem byte_field (m : Ifb) (a : Nat) (h : a + 1 ≤ m.length) : [fieldU8 m a] = (m.drop a).take 1 := by
  have hb : ∀ b : Byte, beBytes 1 b.toNat = [b] := by
    intro b
    simp [beBytes]
  rw [← hb]
  exact beBytes_ofNat_beValue _ 1 (by simp; omega)

end Sys2Proof
end

