-- ==== Sys2Proof/Laws/Decode.lean ====
section
/-! SUPPORT. What each decode gives, as one case split over lengths and field values (40_decode.md), and the decoder of frames. -/

namespace Sys2Proof

@[simp] theorem ok_bind {ε α β : Type} (a : α) (f : α → Except ε β) : (Except.ok a >>= f) = f a := rfl
@[simp] theorem error_bind {ε α β : Type} (e : ε) (f : α → Except ε β) : ((Except.error e : Except ε α) >>= f) = .error e := rfl
@[simp] theorem pure_eq_ok {ε α : Type} (a : α) : (pure a : Except ε α) = .ok a := rfl

theorem decodeEthernet_runt (m : Ifb) (h : m.length < 14) : decodeEthernet m m.length = .error (.drop .malformedEth) := by
  simp [decodeEthernet, Config.ethHeader, h]

theorem decodeEthernet_ok (m : Ifb) (h : 14 ≤ m.length) :
    decodeEthernet m m.length = .ok ⟨fieldMac m 0, fieldMac m 6, fieldU16 m 12, 14, m.length - 14⟩ := by
  simp [decodeEthernet, Config.ethHeader, Nat.not_lt.mpr h, readMac_ok m 0 (by omega), readMac_ok m 6 (by omega),
    readU16_ok m 12 (by omega)]

/-- The message `decodeArp` reads at offset `b`. -/
def arpAt (m : Ifb) (b : Nat) : ArpMessage :=
  { hwType := fieldU16 m b, protoType := fieldU16 m (b + 2), hwLen := fieldU8 m (b + 4), protoLen := fieldU8 m (b + 5)
    opcode := fieldU16 m (b + 6), senderMac := fieldMac m (b + 8), senderIp := fieldIp m (b + 14)
    targetMac := fieldMac m (b + 18), targetIp := fieldIp m (b + 24) }

/-- The format of the message at offset `b` is the supported one. -/
def arpFormatAt (m : Ifb) (b : Nat) : Bool :=
  arpFormatSupported (fieldU16 m b) (fieldU16 m (b + 2)) (fieldU8 m (b + 4)) (fieldU8 m (b + 5))

theorem decodeArp_short (m : Ifb) (b n : Nat) (h : n < 28) : decodeArp m b n = .error (.drop .malformedArpShort) := by
  simp [decodeArp, Config.arpBody, h]

theorem decodeArp_long (m : Ifb) (b n : Nat) (h : 28 ≤ n) (hb : b + n ≤ m.length) :
    decodeArp m b n = if arpFormatAt m b then .ok (arpAt m b) else .error (.drop .malformedArpFormat) := by
  rw [decodeArp, if_neg (by simp only [Config.arpBody]; omega), readU16_ok m b (by omega), readU16_ok m (b + 2) (by omega),
    readU8_ok m (b + 4) (by omega), readU8_ok m (b + 5) (by omega)]
  simp only [ok_bind]
  cases hf : arpFormatAt m b with
  | false => rw [arpFormatAt] at hf; simp [hf]
  | true =>
    rw [arpFormatAt] at hf
    simp [hf, readU16_ok m (b + 6) (by omega), readMac_ok m (b + 8) (by omega), readIp_ok m (b + 14) (by omega),
      readMac_ok m (b + 18) (by omega), readIp_ok m (b + 24) (by omega), arpAt]

theorem decodeIpv4_short (m : Ifb) (b n : Nat) (h : n < 20) : decodeIpv4 m b n = .error (.drop .malformedIpv4Short) := by
  simp [decodeIpv4, Config.ipv4MinHeader, h]

/-- The header `decodeIpv4` reads at offset `b`, with `n` bytes available. -/
def ipv4At (m : Ifb) (b n : Nat) : Ipv4Header :=
  { versionIhl := fieldU8 m b, hl := headerLength (ihlOf (fieldU8 m b)), protocol := fieldU8 m (b + 9)
    srcIp := fieldIp m (b + 12), dstIp := fieldIp m (b + 16)
    payloadBase := b + headerLength (ihlOf (fieldU8 m b)), payloadLen := n - headerLength (ihlOf (fieldU8 m b)) }

theorem decodeIpv4_long (m : Ifb) (b n : Nat) (h : 20 ≤ n) (hb : b + n ≤ m.length) :
    decodeIpv4 m b n =
      if ihlMalformed (ihlOf (fieldU8 m b)) then .error (.drop .malformedIpv4Ihl)
      else if n < headerLength (ihlOf (fieldU8 m b)) then .error (.drop .malformedIpv4Trunc)
      else .ok (ipv4At m b n) := by
  rw [decodeIpv4, if_neg (by simp only [Config.ipv4MinHeader]; omega), readU8_ok m b (by omega)]
  simp [readU8_ok m (b + 9) (by omega), readIp_ok m (b + 12) (by omega), readIp_ok m (b + 16) (by omega), ipv4At]

theorem udpPayloadLength_eq (len : U16) (n : Nat) (h : 8 ≤ n) : udpPayloadLength len n = min (len.toNat - 8) (n - 8) := by
  simp only [udpPayloadLength, clamp]
  omega

theorem decodeUdp_short (m : Ifb) (u n : Nat) (h : n < 8) : decodeUdp m u n = .error (.drop .malformedUdpShort) := by
  simp [decodeUdp, Config.udpHeader, h]

theorem decodeUdp_long (m : Ifb) (u n : Nat) (h : 8 ≤ n) (hb : u + n ≤ m.length) :
    decodeUdp m u n = .ok
      { srcPort := fieldU16 m u, dstPort := fieldU16 m (u + 2), length := fieldU16 m (u + 4)
        payload := (m.drop (u + 8)).take (udpPayloadLength (fieldU16 m (u + 4)) n) } := by
  have hp := udpPayloadLength_eq (fieldU16 m (u + 4)) n h
  rw [decodeUdp, if_neg (by simp only [Config.udpHeader]; omega), readU16_ok m u (by omega), readU16_ok m (u + 2) (by omega),
    readU16_ok m (u + 4) (by omega)]
  simp only [ok_bind]
  rw [bytesAt_ok _ _ _ (by omega)]
  rfl

/-! ## The decoder of frames -/

/-- The IPv4 fields the decoder takes from an IPv4 frame. -/
def ipv4FieldsOf (m : Ifb) : Ipv4Fields :=
  { version := versionOf (fieldU8 m 14), ihl := ihlOf (fieldU8 m 14)
    bytes1to8 := BitVec.ofNat 64 (beValue ((m.drop 15).take 8)), protocol := fieldU8 m 23, bytes10to11 := fieldU16 m 24
    srcIp := fieldIp m 26, dstIp := fieldIp m 30
    options := (m.drop 34).take (headerLength (ihlOf (fieldU8 m 14)) - 20) }

/-- The UDP fields the decoder takes from a UDP header at `u`. -/
def udpFieldsAt (m : Ifb) (u : Nat) : UdpFields :=
  { srcPort := fieldU16 m u, dstPort := fieldU16 m (u + 2), length := fieldU16 m (u + 4), checksum := fieldU16 m (u + 6) }

/-- The instruction of an ARP frame. -/
def arpInstrOf (idIp : Ip) (m : Ifb) : Instr :=
  if m.length < 42 then .arpShort (fieldMac m 0) (fieldMac m 6) (m.drop 14)
  else if !arpFormatAt m 14 then
    .arpBadfmt (fieldMac m 0) (fieldMac m 6) (fieldU16 m 14) (fieldU16 m 16) (fieldU8 m 18) (fieldU8 m 19) (m.drop 20)
  else if !isRequest (fieldU16 m 20) then
    .arpNonreq (fieldMac m 0) (fieldMac m 6) (fieldU16 m 20) (fieldMac m 22) (fieldIp m 28) (fieldMac m 32) (fieldIp m 38)
      (m.drop 42)
  else if fieldIp m 38 == idIp then
    .arpReqMatch (fieldMac m 0) (fieldMac m 6) (fieldMac m 22) (fieldIp m 28) (fieldMac m 32) (fieldIp m 38) (m.drop 42)
  else .arpReqOther (fieldMac m 0) (fieldMac m 6) (fieldMac m 22) (fieldIp m 28) (fieldMac m 32) (fieldIp m 38) (m.drop 42)

/-- The instruction of an IPv4 frame; `hl` is the header's length. -/
def ipv4InstrOf (m : Ifb) : Instr :=
  let hl := headerLength (ihlOf (fieldU8 m 14))
  if m.length < 34 then .ipv4Short (fieldMac m 0) (fieldMac m 6) (m.drop 14)
  else if ihlMalformed (ihlOf (fieldU8 m 14)) then
    .ipv4Badihl (fieldMac m 0) (fieldMac m 6) (versionOf (fieldU8 m 14)) (ihlOf (fieldU8 m 14)) (m.drop 15)
  else if m.length < 14 + hl then
    .ipv4Trunc (fieldMac m 0) (fieldMac m 6) (versionOf (fieldU8 m 14)) (ihlOf (fieldU8 m 14)) (m.drop 15)
  else if !isUdp (fieldU8 m 23) then
    .ipv4Nonudp (fieldMac m 0) (fieldMac m 6) (ipv4FieldsOf m) (m.drop (14 + hl))
  else if m.length < 14 + hl + 8 then
    .udpShort (fieldMac m 0) (fieldMac m 6) (ipv4FieldsOf m) (m.drop (14 + hl))
  else .ipv4Udp (fieldMac m 0) (fieldMac m 6) (ipv4FieldsOf m) (udpFieldsAt m (14 + hl)) (m.drop (14 + hl + 8))

/-- The instruction of a frame. -/
def instrOf (idIp : Ip) (m : Ifb) : Instr :=
  if m.length < 14 then .ethRunt m
  else if fieldU16 m 12 == etherArp then arpInstrOf idIp m
  else if fieldU16 m 12 == etherIpv4 then ipv4InstrOf m
  else .ethOther (fieldMac m 0) (fieldMac m 6) (fieldU16 m 12) (m.drop 14)

theorem headerLength_le (ihl : BitVec 4) : headerLength ihl ≤ 60 := by
  have := ihl.isLt
  simp only [headerLength]
  omega

theorem headerLength_ge {ihl : BitVec 4} (h : ihlMalformed ihl = false) : 20 ≤ headerLength ihl := by
  simp only [ihlMalformed, decide_eq_false_iff_not] at h
  simp only [headerLength]
  omega

theorem decodeArpFrame_eq (idIp : Ip) (m : Ifb) (h : 14 ≤ m.length) :
    decodeArpFrame idIp ⟨fieldMac m 0, fieldMac m 6, fieldU16 m 12, 14, m.length - 14⟩ m = .ok (arpInstrOf idIp m) := by
  unfold decodeArpFrame arpInstrOf
  dsimp only
  by_cases h42 : m.length < 42
  · rw [decodeArp_short _ _ _ (by omega), if_pos h42]
    simp [bytesFrom_ok m 14 h]
  · rw [decodeArp_long _ _ _ (by omega) (by omega), if_neg h42]
    cases hf : arpFormatAt m 14 with
    | false =>
      simp [readU16_ok m 14 (by omega), readU16_ok m 16 (by omega), readU8_ok m 18 (by omega), readU8_ok m 19 (by omega),
        bytesFrom_ok m 20 (by omega)]
    | true =>
      simp only [if_true, bytesFrom_ok m 42 (by omega), ok_bind, arpAt]
      cases hr : isRequest (fieldU16 m 20) <;> cases hi : fieldIp m 38 == idIp <;> simp

theorem decodeIpv4Frame_eq (m : Ifb) (h : 14 ≤ m.length) :
    decodeIpv4Frame ⟨fieldMac m 0, fieldMac m 6, fieldU16 m 12, 14, m.length - 14⟩ m = .ok (ipv4InstrOf m) := by
  unfold decodeIpv4Frame ipv4InstrOf
  dsimp only
  by_cases h34 : m.length < 34
  · rw [decodeIpv4_short _ _ _ (by omega), if_pos h34]
    simp [bytesFrom_ok m 14 h]
  · rw [decodeIpv4_long _ _ _ (by omega) (by omega), if_neg h34]
    cases hi : ihlMalformed (ihlOf (fieldU8 m 14)) with
    | true => simp [readU8_ok m 14 (by omega), bytesFrom_ok m 15 (by omega)]
    | false =>
      have hl := headerLength_ge hi
      by_cases ht : m.length < 14 + headerLength (ihlOf (fieldU8 m 14))
      · rw [if_pos (show m.length - 14 < _ by omega)]
        simp [readU8_ok m 14 (by omega), bytesFrom_ok m 15 (by omega), ht]
      · rw [if_neg (show ¬ m.length - 14 < _ by omega)]
        simp only [if_false, Bool.false_eq_true, decodeIpv4Payload, ipv4At, if_neg ht]
        rw [memRead_ok _ _ _ _ (by omega), readU16_ok m 24 (by omega), bytesAt_ok m 34 _ (by omega), bytesFrom_ok m _ (by omega)]
        simp only [ok_bind]
        cases hu : isUdp (fieldU8 m 23) with
        | false => simp [ipv4FieldsOf]
        | true =>
          by_cases h8 : m.length < 14 + headerLength (ihlOf (fieldU8 m 14)) + 8
          · rw [decodeUdp_short _ _ _ (by omega)]
            simp [ipv4FieldsOf, h8]
          · rw [decodeUdp_long _ _ _ (by omega) (by omega), readU16_ok m _ (by omega), bytesFrom_ok m _ (by omega)]
            simp [ipv4FieldsOf, udpFieldsAt, h8]

/-- The decoder never rejects a frame, and gives this instruction. -/
theorem decodeFrame_eq (idIp : Ip) (m : Ifb) : decodeFrame idIp m = .ok (instrOf idIp m) := by
  unfold decodeFrame instrOf
  by_cases h : m.length < 14
  · simp [decodeEthernet_runt m h, h]
  · rw [decodeEthernet_ok m (by omega), if_neg h]
    simp only [decodeArpFrame_eq idIp m (by omega), decodeIpv4Frame_eq m (by omega), bytesFrom_ok m 14 (by omega), ok_bind,
      pure_eq_ok]
    split_ifs <;> rfl

theorem decode_ingress_eq (idIp : Ip) (F : List Byte) : decode idIp .ingress F = .ok (instrOf idIp (loadIfb F)) :=
  decodeFrame_eq idIp (loadIfb F)

end Sys2Proof
end

