-- ==== Sys2Proof/Laws/State.lean ====
section
/-! SUPPORT. One lemma for each field of each update of State. -/

namespace Sys2Proof.Machine

variable (s : State) (disp : Disposition) (outs : List OutItem) (item : OutItem)

@[simp] theorem State.load_idMac : (State.load disp outs s).idMac = s.idMac := rfl
@[simp] theorem State.load_idIp : (State.load disp outs s).idIp = s.idIp := rfl
@[simp] theorem State.load_runState : (State.load disp outs s).runState = s.runState := rfl
@[simp] theorem State.load_pending : (State.load disp outs s).pending = outs := rfl
@[simp] theorem State.load_cfgIdMac : (State.load disp outs s).cfgIdMac = s.cfgIdMac := rfl
@[simp] theorem State.load_cfgIdIp : (State.load disp outs s).cfgIdIp = s.cfgIdIp := rfl
@[simp] theorem State.load_stopLevel : (State.load disp outs s).stopLevel = s.stopLevel := rfl
@[simp] theorem State.load_resetLevel : (State.load disp outs s).resetLevel = s.resetLevel := rfl
@[simp] theorem State.load_ingress : (State.load disp outs s).ingress = s.ingress.tail := rfl
@[simp] theorem State.load_egressReady : (State.load disp outs s).egressReady = s.egressReady := rfl
@[simp] theorem State.load_eventReady : (State.load disp outs s).eventReady = s.eventReady := rfl
@[simp] theorem State.load_host : (State.load disp outs s).host = s.host := rfl
@[simp] theorem State.load_observed : (State.load disp outs s).observed = s.observed := rfl
@[simp] theorem State.load_trace : (State.load disp outs s).trace = s.trace ++ [disp] := rfl
@[simp] theorem State.load_draws : (State.load disp outs s).draws = s.draws := rfl

@[simp] theorem State.pop_idMac : (State.pop item s).idMac = s.idMac := rfl
@[simp] theorem State.pop_idIp : (State.pop item s).idIp = s.idIp := rfl
@[simp] theorem State.pop_runState : (State.pop item s).runState = if s.runState == runStopping && s.pending.tail.isEmpty then runStopped else s.runState := rfl
@[simp] theorem State.pop_pending : (State.pop item s).pending = s.pending.tail := rfl
@[simp] theorem State.pop_cfgIdMac : (State.pop item s).cfgIdMac = s.cfgIdMac := rfl
@[simp] theorem State.pop_cfgIdIp : (State.pop item s).cfgIdIp = s.cfgIdIp := rfl
@[simp] theorem State.pop_stopLevel : (State.pop item s).stopLevel = s.stopLevel := rfl
@[simp] theorem State.pop_resetLevel : (State.pop item s).resetLevel = s.resetLevel := rfl
@[simp] theorem State.pop_ingress : (State.pop item s).ingress = s.ingress := rfl
@[simp] theorem State.pop_egressReady : (State.pop item s).egressReady = s.egressReady := rfl
@[simp] theorem State.pop_eventReady : (State.pop item s).eventReady = s.eventReady := rfl
@[simp] theorem State.pop_host : (State.pop item s).host = s.host := rfl
@[simp] theorem State.pop_observed : (State.pop item s).observed = s.observed ++ [item] := rfl
@[simp] theorem State.pop_trace : (State.pop item s).trace = s.trace := rfl
@[simp] theorem State.pop_draws : (State.pop item s).draws = s.draws := rfl

@[simp] theorem State.seeStop_idMac : (s.seeStop).idMac = s.idMac := rfl
@[simp] theorem State.seeStop_idIp : (s.seeStop).idIp = s.idIp := rfl
@[simp] theorem State.seeStop_runState : (s.seeStop).runState = if s.pending.isEmpty then runStopped else runStopping := rfl
@[simp] theorem State.seeStop_pending : (s.seeStop).pending = s.pending := rfl
@[simp] theorem State.seeStop_cfgIdMac : (s.seeStop).cfgIdMac = s.cfgIdMac := rfl
@[simp] theorem State.seeStop_cfgIdIp : (s.seeStop).cfgIdIp = s.cfgIdIp := rfl
@[simp] theorem State.seeStop_stopLevel : (s.seeStop).stopLevel = s.stopLevel := rfl
@[simp] theorem State.seeStop_resetLevel : (s.seeStop).resetLevel = s.resetLevel := rfl
@[simp] theorem State.seeStop_ingress : (s.seeStop).ingress = s.ingress := rfl
@[simp] theorem State.seeStop_egressReady : (s.seeStop).egressReady = s.egressReady := rfl
@[simp] theorem State.seeStop_eventReady : (s.seeStop).eventReady = s.eventReady := rfl
@[simp] theorem State.seeStop_host : (s.seeStop).host = s.host := rfl
@[simp] theorem State.seeStop_observed : (s.seeStop).observed = s.observed := rfl
@[simp] theorem State.seeStop_trace : (s.seeStop).trace = s.trace := rfl
@[simp] theorem State.seeStop_draws : (s.seeStop).draws = s.draws := rfl

@[simp] theorem State.draw_idMac : (s.draw).idMac = s.idMac := rfl
@[simp] theorem State.draw_idIp : (s.draw).idIp = s.idIp := rfl
@[simp] theorem State.draw_runState : (s.draw).runState = s.runState := rfl
@[simp] theorem State.draw_pending : (s.draw).pending = s.pending := rfl
@[simp] theorem State.draw_cfgIdMac : (s.draw).cfgIdMac = s.cfgIdMac := rfl
@[simp] theorem State.draw_cfgIdIp : (s.draw).cfgIdIp = s.cfgIdIp := rfl
@[simp] theorem State.draw_stopLevel : (s.draw).stopLevel = s.stopLevel := rfl
@[simp] theorem State.draw_resetLevel : (s.draw).resetLevel = s.resetLevel := rfl
@[simp] theorem State.draw_ingress : (s.draw).ingress = s.ingress := rfl
@[simp] theorem State.draw_egressReady : (s.draw).egressReady = s.egressReady := rfl
@[simp] theorem State.draw_eventReady : (s.draw).eventReady = s.eventReady := rfl
@[simp] theorem State.draw_host : (s.draw).host = s.host := rfl
@[simp] theorem State.draw_observed : (s.draw).observed = s.observed := rfl
@[simp] theorem State.draw_trace : (s.draw).trace = s.trace := rfl
@[simp] theorem State.draw_draws : (s.draw).draws = s.draws + 1 := rfl

@[simp] theorem State.assertReset_idMac : (s.assertReset).idMac = s.idMac := rfl
@[simp] theorem State.assertReset_idIp : (s.assertReset).idIp = s.idIp := rfl
@[simp] theorem State.assertReset_runState : (s.assertReset).runState = runRunning := rfl
@[simp] theorem State.assertReset_pending : (s.assertReset).pending = [] := rfl
@[simp] theorem State.assertReset_cfgIdMac : (s.assertReset).cfgIdMac = s.cfgIdMac := rfl
@[simp] theorem State.assertReset_cfgIdIp : (s.assertReset).cfgIdIp = s.cfgIdIp := rfl
@[simp] theorem State.assertReset_stopLevel : (s.assertReset).stopLevel = s.stopLevel := rfl
@[simp] theorem State.assertReset_resetLevel : (s.assertReset).resetLevel = true := rfl
@[simp] theorem State.assertReset_ingress : (s.assertReset).ingress = s.ingress := rfl
@[simp] theorem State.assertReset_egressReady : (s.assertReset).egressReady = s.egressReady := rfl
@[simp] theorem State.assertReset_eventReady : (s.assertReset).eventReady = s.eventReady := rfl
@[simp] theorem State.assertReset_host : (s.assertReset).host = s.host := rfl
@[simp] theorem State.assertReset_observed : (s.assertReset).observed = s.observed := rfl
@[simp] theorem State.assertReset_trace : (s.assertReset).trace = s.trace := rfl
@[simp] theorem State.assertReset_draws : (s.assertReset).draws = s.draws := rfl

@[simp] theorem State.releaseReset_idMac : (s.releaseReset).idMac = s.cfgIdMac := rfl
@[simp] theorem State.releaseReset_idIp : (s.releaseReset).idIp = s.cfgIdIp := rfl
@[simp] theorem State.releaseReset_runState : (s.releaseReset).runState = runRunning := rfl
@[simp] theorem State.releaseReset_pending : (s.releaseReset).pending = [] := rfl
@[simp] theorem State.releaseReset_cfgIdMac : (s.releaseReset).cfgIdMac = s.cfgIdMac := rfl
@[simp] theorem State.releaseReset_cfgIdIp : (s.releaseReset).cfgIdIp = s.cfgIdIp := rfl
@[simp] theorem State.releaseReset_stopLevel : (s.releaseReset).stopLevel = s.stopLevel := rfl
@[simp] theorem State.releaseReset_resetLevel : (s.releaseReset).resetLevel = false := rfl
@[simp] theorem State.releaseReset_ingress : (s.releaseReset).ingress = s.ingress := rfl
@[simp] theorem State.releaseReset_egressReady : (s.releaseReset).egressReady = s.egressReady := rfl
@[simp] theorem State.releaseReset_eventReady : (s.releaseReset).eventReady = s.eventReady := rfl
@[simp] theorem State.releaseReset_host : (s.releaseReset).host = s.host := rfl
@[simp] theorem State.releaseReset_observed : (s.releaseReset).observed = s.observed := rfl
@[simp] theorem State.releaseReset_trace : (s.releaseReset).trace = s.trace := rfl
@[simp] theorem State.releaseReset_draws : (s.releaseReset).draws = s.draws := rfl

end Sys2Proof.Machine
end

