-- ==== Sys2Proof/Laws/Ops.lean ====
section
/-! SUPPORT. What each shared operation of the machine can do, said once. -/

namespace Sys2Proof.Machine

/-! ## Model faults -/

theorem modelFault_eq_none_iff (s : State) :
    s.modelFault = none ↔ s.runState ≠ runIllegal ∧ s.pending.length ≤ 3 ∧ s.pending.any itemReserved = false := by
  unfold State.modelFault
  split_ifs with h1 h2 h3
  · simp [h1]
  · simp [h1, h2]
  · simp [h1, h3]
  · simp only [true_iff]
    exact ⟨h1, Nat.le_of_not_lt h2, by simpa using h3⟩

theorem guarded_of_none {s : State} (h : s.modelFault = none) (o : Host.Outcome State Fault Refusal) : guarded s o = o := by
  simp [guarded, h]

theorem guarded_of_some {s : State} {f : Fault} (h : s.modelFault = some f) (o : Host.Outcome State Fault Refusal) :
    guarded s o = .fault f := by
  simp [guarded, h]

theorem guarded_next {s t : State} {o : Host.Outcome State Fault Refusal} (h : guarded s o = .next t) :
    s.modelFault = none ∧ o = .next t := by
  unfold guarded at h
  cases hm : s.modelFault with
  | none => rw [hm] at h; exact ⟨rfl, h⟩
  | some f => rw [hm] at h; cases h

/-! ## The accept step -/

theorem acceptEnabled_iff (s : State) : s.acceptEnabled = true ↔ CanAccept s := by
  simp [State.acceptEnabled, CanAccept, and_assoc]

theorem CanAccept.modelFault {s : State} (h : CanAccept s) : s.modelFault = none := by
  obtain ⟨_, hr, hp, _⟩ := h
  rw [modelFault_eq_none_iff, hr, hp]
  decide

/-- The accept step, where it is enabled. -/
theorem accept_of_canAccept {s : State} (h : CanAccept s) (disp : Disposition) (outs : List OutItem) :
    accept disp outs s = .next { s with pending := outs, ingress := s.ingress.tail, trace := s.trace ++ [disp] } := by
  rw [accept, guarded_of_none h.modelFault, if_pos ((acceptEnabled_iff s).mpr h)]
  rfl

/-- Everything the accept step can do. -/
theorem accept_next {s t : State} {disp : Disposition} {outs : List OutItem} (h : accept disp outs s = .next t) :
    (CanAccept s ∧ t = s.load disp outs) ∨ (¬ CanAccept s ∧ t = s) := by
  obtain ⟨_, h⟩ := guarded_next h
  rw [← acceptEnabled_iff]
  split_ifs at h with he
  · left; exact ⟨he, by simpa using h.symm⟩
  · right; exact ⟨he, by simpa using h.symm⟩

/-! ## The emit step -/

theorem emitEnabled_iff (s : State) (item : OutItem) :
    s.emitEnabled item = true ↔ s.resetLevel = false ∧ (s.runState = runRunning ∨ s.runState = runStopping)
      ∧ s.pending.head? = some item ∧ s.portReady item = true := by
  simp [State.emitEnabled, and_assoc]

theorem CanEmit.modelFault {s : State} {item : OutItem} (h : CanEmit s item) : s.modelFault = none := by
  obtain ⟨_, hr, _, _, hl, ha⟩ := h
  rw [modelFault_eq_none_iff]
  refine ⟨?_, hl, ha⟩
  rcases hr with hr | hr <;> rw [hr] <;> decide

/-- The emit step, where it is enabled. -/
theorem emitItem_of_canEmit {s : State} {item : OutItem} (h : CanEmit s item) : emitItem item s = .next (s.pop item) := by
  rw [emitItem, guarded_of_none h.modelFault]
  obtain ⟨h1, h2, h3, h4, _, _⟩ := h
  rw [if_pos ((emitEnabled_iff s item).mpr ⟨h1, h2, h3, h4⟩)]

/-- Everything the emit step can do. -/
theorem emitItem_next {s t : State} {item : OutItem} (h : emitItem item s = .next t) :
    (s.emitEnabled item = true ∧ t = s.pop item) ∨ (s.emitEnabled item = false ∧ t = s) := by
  obtain ⟨_, h⟩ := guarded_next h
  split_ifs at h with he
  · left; exact ⟨he, by simpa using h.symm⟩
  · right; exact ⟨by simpa using he, by simpa using h.symm⟩

/-! ## Meanings -/

/-- Everything an instruction can do: load one frame's outputs, let one item leave, or nothing. -/
theorem exec_next {i : Instr} {s t : State} (h : exec i s = .next t) :
    (CanAccept s ∧ ∃ disp outs, t = s.load disp outs) ∨ (∃ item, s.emitEnabled item = true ∧ t = s.pop item) ∨ t = s := by
  have acc : ∀ disp outs, accept disp outs s = .next t →
      (CanAccept s ∧ ∃ disp outs, t = s.load disp outs) ∨ (∃ item, s.emitEnabled item = true ∧ t = s.pop item) ∨ t = s := by
    intro disp outs h
    rcases accept_next h with ⟨hc, ht⟩ | ⟨_, ht⟩
    · exact .inl ⟨hc, disp, outs, ht⟩
    · exact .inr (.inr ht)
  cases i with
  | txArpReply tm ti sm si =>
    rcases emitItem_next h with ⟨he, ht⟩ | ⟨_, ht⟩
    · exact .inr (.inl ⟨_, he, ht⟩)
    · exact .inr (.inr ht)
  | ethRunt _ => exact acc _ _ h
  | arpShort _ _ _ => exact acc _ _ h
  | arpBadfmt _ _ _ _ _ _ _ => exact acc _ _ h
  | arpReqMatch _ _ _ _ _ _ _ => exact acc _ _ h
  | arpReqOther _ _ _ _ _ _ _ => exact acc _ _ h
  | arpNonreq _ _ _ _ _ _ _ _ => exact acc _ _ h
  | ipv4Short _ _ _ => exact acc _ _ h
  | ipv4Badihl _ _ _ _ _ => exact acc _ _ h
  | ipv4Trunc _ _ _ _ _ => exact acc _ _ h
  | ipv4Nonudp _ _ _ _ => exact acc _ _ h
  | udpShort _ _ _ _ => exact acc _ _ h
  | ipv4Udp _ _ _ _ _ => exact acc _ _ h
  | ethOther _ _ _ _ => exact acc _ _ h

/-! ## The host's interactions -/

/-- No host interaction but RESET touches the identity, the run state, the pending items or what the machine has done. -/
theorem hostStep_frame (a : HostAction) (s : State) (h : ∀ level, a ≠ .reset level) :
    (hostStep a s).idMac = s.idMac ∧ (hostStep a s).idIp = s.idIp ∧ (hostStep a s).runState = s.runState
      ∧ (hostStep a s).pending = s.pending ∧ (hostStep a s).resetLevel = s.resetLevel
      ∧ (hostStep a s).observed = s.observed ∧ (hostStep a s).trace = s.trace := by
  cases a <;> first | exact absurd rfl (h _) | simp [hostStep]

end Sys2Proof.Machine
end

