-- ==== Sys2Proof/Laws/PerInstr.lean ====
section
/-! SUPPORT. The families of statements made once for each instruction. `EncodedSize`: the frame of a well-formed instruction fits the
frame buffer of its port, `IFB` (R61) or `EFB` (R62). -/

namespace Sys2Proof.Laws.EncodedSize

/-- A well-formed ingress instruction is a frame of at most 2048 bytes, and the egress one a frame of exactly 60. -/
def Statement (i : Instr) : Prop :=
  ∀ idIp, i.wf idIp = true →
    (i.port = .ingress → (encode i).length ≤ Config.maxFrame) ∧ (i.port = .egress → (encode i).length = Config.replyFrame)

theorem ethRunt (bytes : List Byte) : Statement (.ethRunt bytes) := by
  intro idIp h
  simp [Instr.wf, encode, Instr.port, Config.maxFrame] at *
  omega

theorem arpShort (dst src : Mac) (body : List Byte) : Statement (.arpShort dst src body) := by
  intro idIp h
  simp [Instr.wf, encode, ethBytes, Instr.port, Config.maxFrame] at *
  omega

theorem arpBadfmt (dst src : Mac) (hwType protoType : U16) (hwLen protoLen : U8) (rest : List Byte) :
    Statement (.arpBadfmt dst src hwType protoType hwLen protoLen rest) := by
  intro idIp h
  simp [Instr.wf, encode, ethBytes, Instr.port, Config.maxFrame] at *
  omega

theorem arpReqMatch (dst src sha : Mac) (spa : Ip) (tha : Mac) (tpa : Ip) (trailer : List Byte) :
    Statement (.arpReqMatch dst src sha spa tha tpa trailer) := by
  intro idIp h
  simp [Instr.wf, encode, ethBytes, arpBytes, Instr.port, Config.maxFrame] at *
  omega

theorem arpReqOther (dst src sha : Mac) (spa : Ip) (tha : Mac) (tpa : Ip) (trailer : List Byte) :
    Statement (.arpReqOther dst src sha spa tha tpa trailer) := by
  intro idIp h
  simp [Instr.wf, encode, ethBytes, arpBytes, Instr.port, Config.maxFrame] at *
  omega

theorem arpNonreq (dst src : Mac) (opcode : U16) (sha : Mac) (spa : Ip) (tha : Mac) (tpa : Ip) (trailer : List Byte) :
    Statement (.arpNonreq dst src opcode sha spa tha tpa trailer) := by
  intro idIp h
  simp [Instr.wf, encode, ethBytes, arpBytes, Instr.port, Config.maxFrame] at *
  omega

theorem ipv4Short (dst src : Mac) (body : List Byte) : Statement (.ipv4Short dst src body) := by
  intro idIp h
  simp [Instr.wf, encode, ethBytes, Instr.port, Config.maxFrame] at *
  omega

theorem ipv4Badihl (dst src : Mac) (version ihl : BitVec 4) (rest : List Byte) :
    Statement (.ipv4Badihl dst src version ihl rest) := by
  intro idIp h
  simp [Instr.wf, encode, ethBytes, Instr.port, Config.maxFrame] at *
  omega

theorem ipv4Trunc (dst src : Mac) (version ihl : BitVec 4) (rest : List Byte) :
    Statement (.ipv4Trunc dst src version ihl rest) := by
  intro idIp h
  have := ihl.isLt
  simp [Instr.wf, encode, ethBytes, Instr.port, Config.maxFrame, headerLength] at *
  have := of_decide_eq_true h.2
  omega

theorem ipv4Nonudp (dst src : Mac) (ip : Ipv4Fields) (payload : List Byte) : Statement (.ipv4Nonudp dst src ip payload) := by
  intro idIp h
  simp [Instr.wf, Ipv4Fields.wf, encode, ethBytes, ipv4Bytes, Instr.port, Config.maxFrame] at *
  have := of_decide_eq_true h.2
  omega

theorem udpShort (dst src : Mac) (ip : Ipv4Fields) (payload : List Byte) : Statement (.udpShort dst src ip payload) := by
  intro idIp h
  have := ip.ihl.isLt
  simp [Instr.wf, Ipv4Fields.wf, encode, ethBytes, ipv4Bytes, Instr.port, Config.maxFrame, headerLength] at *
  omega

theorem ipv4Udp (dst src : Mac) (ip : Ipv4Fields) (udp : UdpFields) (data : List Byte) :
    Statement (.ipv4Udp dst src ip udp data) := by
  intro idIp h
  simp [Instr.wf, Ipv4Fields.wf, encode, ethBytes, ipv4Bytes, udpBytes, Instr.port, Config.maxFrame] at *
  have := of_decide_eq_true h.2
  omega

theorem ethOther (dst src : Mac) (etherType : U16) (payload : List Byte) : Statement (.ethOther dst src etherType payload) := by
  intro idIp h
  simp [Instr.wf, encode, ethBytes, Instr.port, Config.maxFrame] at *
  omega

theorem txArpReply (tm : Mac) (ti : Ip) (sm : Mac) (si : Ip) : Statement (.txArpReply tm ti sm si) := by
  intro idIp h
  simp [encode, ethBytes, arpBytes, Instr.port, Config.replyFrame]

end Sys2Proof.Laws.EncodedSize
end

