-- ==== Sys2Proof/Machine/FrameNotation.lean ====
section
/-! DEFINITION. The frame notation of 30_encoding.md R108 and R109, the spec's stand-in for an assembler. The machine does not use it:
programs and test vectors are written in it. -/

namespace Sys2Proof

/-- One directive (R108, R109). An omitted argument is `none`; a text is the list of its characters. -/
inductive Directive where
  | eth (dst src : Mac) (type : U16)
  | arp (htype ptype : U16) (hlen plen : U8) (op : U16) (sha : Mac) (spa : Ip) (tha : Mac) (tpa : Ip)
  | ipv4 (ver ihl : BitVec 4) (tl : U16) (proto : U8) (src dst : Ip) (opts : List Byte)
  | udp (sport dport len : U16) (csum : Option U16)
  | text (chars : List Char)
  | data (bytes : List Byte)
  | pad (n : Nat)
  | raw (bytes : List Byte)
  | arpreq (sha : Mac) (spa tpa : Ip) (dst tha : Option Mac)
  | arprep (sha : Mac) (spa : Ip) (tha : Mac) (tpa : Ip)
  | udp4 (dmac smac : Mac) (sip dip : Ip) (sport dport : U16) (chars : List Char)
  deriving DecidableEq, Repr

/-- The sum of the 16-bit words of a byte string, an odd last byte counting as the high half of a word. -/
def wordSum : List Byte → Nat
  | [] => 0
  | [b] => b.toNat * 256
  | b :: c :: bs => b.toNat * 256 + c.toNat + wordSum bs

/-- The carries above bit 15 added back in; twice is enough for the 30 words of a longest header. -/
def foldCarries (n : Nat) : Nat :=
  let once := n % 65536 + n / 65536
  once % 65536 + once / 65536

/-- The RFC 1071 checksum (R108, the spec's general knowledge): the complement of the words' one's-complement sum. -/
def internetChecksum (bytes : List Byte) : U16 := ~~~ (BitVec.ofNat 16 (foldCarries (wordSum bytes)))

/-- `bytes` zero-filled or cut to `n` bytes (R108). -/
def fitTo (n : Nat) (bytes : List Byte) : List Byte := bytes.take n ++ List.replicate (n - bytes.length) 0#8

/-- An ARP body (R91). -/
def arpDirective (htype ptype : U16) (hlen plen : U8) (op : U16) (sha : Mac) (spa : Ip) (tha : Mac) (tpa : Ip) : List Byte :=
  u16Bytes htype ++ u16Bytes ptype ++ [hlen, plen] ++ u16Bytes op ++ macBytes sha ++ ipBytes spa ++ macBytes tha ++ ipBytes tpa

/-- An Ethernet header (R90). -/
def ethDirective (dst src : Mac) (type : U16) : List Byte := macBytes dst ++ macBytes src ++ u16Bytes type

/-- An IPv4 header, `max(20, 4*ihl)` bytes, with a correct header checksum (R108). -/
def ipv4Directive (ver ihl : BitVec 4) (tl : U16) (proto : U8) (src dst : Ip) (opts : List Byte) : List Byte :=
  let front := versionIhlByte ver ihl :: 0#8 :: u16Bytes tl ++ [0#8, 0#8, 0#8, 0#8, 64#8, proto]
  let back := ipBytes src ++ ipBytes dst ++ fitTo (headerLength ihl - 20) opts
  front ++ u16Bytes (internetChecksum (front ++ [0#8, 0#8] ++ back)) ++ back

/-- A UDP header; the checksum defaults to 0 (R108). -/
def udpDirective (sport dport len : U16) (csum : Option U16) : List Byte :=
  u16Bytes sport ++ u16Bytes dport ++ u16Bytes len ++ u16Bytes (csum.getD 0#16)

/-- The ASCII bytes of a text (R108). -/
def textBytes (chars : List Char) : List Byte := chars.map fun c => BitVec.ofNat 8 c.toNat

/-- The bytes of a directive (R108, R109). -/
def Directive.expand : Directive → List Byte
  | .eth dst src type => ethDirective dst src type
  | .arp htype ptype hlen plen op sha spa tha tpa => arpDirective htype ptype hlen plen op sha spa tha tpa
  | .ipv4 ver ihl tl proto src dst opts => ipv4Directive ver ihl tl proto src dst opts
  | .udp sport dport len csum => udpDirective sport dport len csum
  | .text chars => textBytes chars
  | .data bytes => bytes
  | .pad n => List.replicate n 0#8
  | .raw bytes => bytes
  | .arpreq sha spa tpa dst tha =>
      ethDirective (dst.getD 0xffffffffffff#48) sha etherArp
        ++ arpDirective 1#16 0x0800#16 6#8 4#8 1#16 sha spa (tha.getD 0#48) tpa
  | .arprep sha spa tha tpa => ethDirective tha sha etherArp ++ arpDirective 1#16 0x0800#16 6#8 4#8 2#16 sha spa tha tpa
  | .udp4 dmac smac sip dip sport dport chars =>
      ethDirective dmac smac etherIpv4
        ++ ipv4Directive 4#4 5#4 (BitVec.ofNat 16 (28 + chars.length)) 17#8 sip dip []
        ++ udpDirective sport dport (BitVec.ofNat 16 (8 + chars.length)) none
        ++ textBytes chars

/-- A frame: the directives' bytes in order (R108). -/
def frameOf (directives : List Directive) : List Byte := directives.flatMap Directive.expand

end Sys2Proof
end

