-- ==== Sys2Proof/Tests/Slice0.lean ====
section
/-! SUPPORT. The model's own tests. Expected values are the spec's: 95_test_vectors.md, by section, or the worked layout of the rule
named. The frames are written out as 95_test_vectors.md gives their bytes. -/

namespace Sys2Proof.Tests

open Sys2Proof.Machine

/-! ## The spec's frames and a small state -/

/-- Scenario 1 (95 E6). -/
def scenario1 : List Byte :=
  [0xff, 0xff, 0xff, 0xff, 0xff, 0xff, 0xaa, 0xbb, 0xcc, 0xdd, 0xee, 0xff, 0x08, 0x06, 0x00, 0x01,
    0x08, 0x00, 0x06, 0x04, 0x00, 0x01, 0xaa, 0xbb, 0xcc, 0xdd, 0xee, 0xff, 0x0a, 0x00, 0x02, 0x0f,
    0x00, 0x00, 0x00, 0x00, 0x00, 0x00, 0x0a, 0x00, 0x02, 0x02]

/-- Scenario 3 (95 E8). -/
def scenario3 : List Byte :=
  [0x52, 0x55, 0x0a, 0x00, 0x02, 0x02, 0x52, 0x54, 0x00, 0x12, 0x34, 0x56, 0x08, 0x00, 0x45, 0x00,
    0x00, 0x21, 0x00, 0x00, 0x00, 0x00, 0x40, 0x11, 0x62, 0xbc, 0x0a, 0x00, 0x02, 0x0f, 0x0a, 0x00,
    0x02, 0x02, 0x30, 0x39, 0x00, 0x35, 0x00, 0x0d, 0x00, 0x00, 0x68, 0x65, 0x6c, 0x6c, 0x6f]

/-- The reply to scenario 1 (R176, 95 E6). -/
def reply1 : List Byte :=
  [0xaa, 0xbb, 0xcc, 0xdd, 0xee, 0xff, 0x52, 0x55, 0x0a, 0x00, 0x02, 0x02, 0x08, 0x06, 0x00, 0x01,
    0x08, 0x00, 0x06, 0x04, 0x00, 0x02, 0x52, 0x55, 0x0a, 0x00, 0x02, 0x02, 0x0a, 0x00, 0x02, 0x02,
    0xaa, 0xbb, 0xcc, 0xdd, 0xee, 0xff, 0x0a, 0x00, 0x02, 0x0f, 0x00, 0x00, 0x00, 0x00, 0x00, 0x00,
    0x00, 0x00, 0x00, 0x00, 0x00, 0x00, 0x00, 0x00, 0x00, 0x00, 0x00, 0x00]

/-- Frame F2 of program P2: an IPv4 header of 28 bytes (95 P2). -/
def optionsFrame : List Byte :=
  [0x52, 0x55, 0x0a, 0x00, 0x02, 0x02, 0x52, 0x54, 0x00, 0x12, 0x34, 0x56, 0x08, 0x00, 0x47, 0x00,
    0x00, 0x27, 0x00, 0x00, 0x00, 0x00, 0x40, 0x11, 0x50, 0xa2, 0x0a, 0x00, 0x02, 0x0f, 0x0a, 0x00,
    0x02, 0x02, 0x01, 0x02, 0x03, 0x04, 0x05, 0x06, 0x07, 0x08, 0x14, 0xe9, 0x14, 0xe9, 0x00, 0x0b,
    0x00, 0x00, 0x61, 0x62, 0x63, 0x00, 0x00, 0x00, 0x00, 0x00, 0x00, 0x00]

/-- The example identity, running, nothing pending, the host ready on both ports. -/
def base : State where
  idMac := 0x52550a000202
  idIp := 0x0a000202
  runState := runRunning
  pending := []
  cfgIdMac := 0x52550a000202
  cfgIdIp := 0x0a000202
  stopLevel := false
  resetLevel := false
  ingress := []
  egressReady := true
  eventReady := true
  host := []
  observed := []
  trace := []
  draws := 0

/-- `base` with a frame offered. -/
def offering (F : List Byte) : State := { base with ingress := [F] }

/-- `base` with these items pending. -/
def queued (items : List OutItem) : State := { base with pending := items }

/-- The items of scenario 1 (95 E6). -/
def observed1 : OutItem := .ev (.arpRequestObserved ⟨1, 0x0800, 6, 4, 1, 0xaabbccddeeff, 0x0a00020f, 0, 0x0a000202⟩)
def tx1 : OutItem := .tx reply1
def sent1 : OutItem := .ev (.arpReplySent ⟨0xaabbccddeeff, 0x0a00020f, 0x52550a000202, 0x0a000202⟩)

/-- What the decoder reads with the example identity. -/
def decoded (port : Port) (bytes : List Byte) : Option Instr := (decode 0x0a000202 port bytes).toOption

/-- The next state of an outcome. -/
def nextOf : Host.Outcome State Fault Refusal → Option State
  | .next s => some s
  | .fault _ => none
  | .refused _ => none

/-- The fault of an outcome. -/
def faultOf : Host.Outcome State Fault Refusal → Option Fault
  | .next _ => none
  | .fault f => some f
  | .refused _ => none

/-- The state after one step. -/
def after (s : State) : Option State := nextOf (step s)

/-! ## Decoding: every constructor, by a frame written out from the layouts (30_encoding.md R90 to R95; 95 section 2.7) -/

theorem test_decode_eth_runt : decoded .ingress (scenario1.take 13) = some (.ethRunt (scenario1.take 13)) := by decide

theorem test_decode_arp_short :
    decoded .ingress (scenario1.take 41) = some (.arpShort 0xffffffffffff 0xaabbccddeeff ((scenario1.take 41).drop 14)) := by decide

/-- Scenario 1 with `htype = 6` (95 section 2.7). -/
theorem test_decode_arp_badfmt :
    decoded .ingress (scenario1.set 15 6)
      = some (.arpBadfmt 0xffffffffffff 0xaabbccddeeff 6 0x0800 6 4 (scenario1.drop 20)) := by decide

theorem test_decode_arp_req_match :
    decoded .ingress scenario1
      = some (.arpReqMatch 0xffffffffffff 0xaabbccddeeff 0xaabbccddeeff 0x0a00020f 0 0x0a000202 []) := by decide

/-- Scenario 2: `targetIp = 10.0.2.99` (95 E7). -/
theorem test_decode_arp_req_other :
    decoded .ingress (scenario1.set 41 0x63)
      = some (.arpReqOther 0xffffffffffff 0xaabbccddeeff 0xaabbccddeeff 0x0a00020f 0 0x0a000263 []) := by decide

/-- The NFB's own reply, looped back (95 P3, F3). -/
theorem test_decode_arp_nonreq :
    decoded .ingress reply1
      = some (.arpNonreq 0xaabbccddeeff 0x52550a000202 2 0x52550a000202 0x0a000202 0xaabbccddeeff 0x0a00020f
          (List.replicate 18 0)) := by decide

theorem test_decode_ipv4_short :
    decoded .ingress (scenario3.take 33)
      = some (.ipv4Short 0x52550a000202 0x525400123456 ((scenario3.take 33).drop 14)) := by decide

theorem test_decode_ipv4_badihl :
    decoded .ingress (scenario3.set 14 0x44)
      = some (.ipv4Badihl 0x52550a000202 0x525400123456 4 4 (scenario3.drop 15)) := by decide

theorem test_decode_ipv4_trunc :
    decoded .ingress (scenario3.set 14 0x4f)
      = some (.ipv4Trunc 0x52550a000202 0x525400123456 4 15 (scenario3.drop 15)) := by decide

theorem test_decode_ipv4_nonudp :
    decoded .ingress (scenario3.set 23 6)
      = some (.ipv4Nonudp 0x52550a000202 0x525400123456
          ⟨4, 5, 0x0000210000000040, 6, 0x62bc, 0x0a00020f, 0x0a000202, []⟩ (scenario3.drop 34)) := by decide

theorem test_decode_udp_short :
    decoded .ingress (scenario3.take 41)
      = some (.udpShort 0x52550a000202 0x525400123456
          ⟨4, 5, 0x0000210000000040, 17, 0x62bc, 0x0a00020f, 0x0a000202, []⟩ ((scenario3.take 41).drop 34)) := by decide

/-- 95 P2, F2: options of 8 bytes, 3 payload bytes and 7 of padding. -/
theorem test_decode_ipv4_udp :
    decoded .ingress optionsFrame
      = some (.ipv4Udp 0x52550a000202 0x525400123456
          ⟨4, 7, 0x0000270000000040, 17, 0x50a2, 0x0a00020f, 0x0a000202, [1, 2, 3, 4, 5, 6, 7, 8]⟩
          ⟨5353, 5353, 11, 0⟩ [0x61, 0x62, 0x63, 0, 0, 0, 0, 0, 0, 0]) := by decide

/-- Scenario 1 with bytes 12 and 13 `86 dd` (95 section 2.7). -/
theorem test_decode_eth_other :
    decoded .ingress ((scenario1.set 12 0x86).set 13 0xdd)
      = some (.ethOther 0xffffffffffff 0xaabbccddeeff 0x86dd (scenario1.drop 14)) := by decide

theorem test_decode_tx_arp_reply :
    decoded .egress reply1 = some (.txArpReply 0xaabbccddeeff 0x0a00020f 0x52550a000202 0x0a000202) := by decide

/-- Bytes that are not the format of R95 are refused: the opcode of a request. -/
theorem test_egress_refused : decoded .egress (reply1.set 21 1) = none := by decide

/-- Bytes past offset 2047 are discarded (R61): a frame of 2050 bytes is one of 2048. -/
theorem test_long_frame_is_cut : (loadIfb (scenario1 ++ List.replicate 2008 0)).length = 2048 := by
  simp only [loadIfb, List.length_take, List.length_append, List.length_replicate, Config.maxFrame]; decide

/-- The cuts of scenario 3 (95 E1): the class at the first and last length of each range. -/
theorem test_cuts_of_scenario3 :
    [0, 13, 14, 33, 34, 41, 42, 47].map (fun n => classify 0x0a000202 (scenario3.take n))
      = [some .ethRunt, some .ethRunt, some .ipv4Short, some .ipv4Short, some .udpShort, some .udpShort, some .ipv4Udp,
          some .ipv4Udp] := by decide

/-- The opcode table's words: IPV4_NONUDP's with the `IHL` its conditions ask for, and the egress constants of R100. -/
theorem test_table_word_ingress : (decodeTableWord 96 0x080045000000000000000006).bind Instr.frameClass = some .ipv4Nonudp := by
  decide
theorem test_table_word_egress :
    decodeTableWord 480 0x080600010800060400020000000000000000000000000000000000000000000000000000000000000000000000000000 = some (.txArpReply 0 0 0 0) := by decide

/-! ## The frame notation gives the spec's bytes -/

theorem test_notation_scenario1 :
    frameOf [.arpreq 0xaabbccddeeff 0x0a00020f 0x0a000202 none none] = scenario1 := by decide

theorem test_notation_scenario3 :
    frameOf [.udp4 0x52550a000202 0x525400123456 0x0a00020f 0x0a000202 12345 53 ['h', 'e', 'l', 'l', 'o']] = scenario3 := by decide

theorem test_notation_options :
    frameOf [.eth 0x52550a000202 0x525400123456 0x0800, .ipv4 4 7 39 17 0x0a00020f 0x0a000202 [1, 2, 3, 4, 5, 6, 7, 8],
      .udp 5353 5353 11 none, .text ['a', 'b', 'c'], .pad 7] = optionsFrame := by decide

/-! ## Well-formedness: a term each check refuses, and one each constructor accepts -/

/-- An IPv4 header with its protocol, its IHL and its options. -/
def ip (protocol : U8) (ihl : BitVec 4) (options : List Byte) : Ipv4Fields :=
  ⟨4, ihl, 0, protocol, 0, 0x0a00020f, 0x0a000202, options⟩

theorem test_wf_refuses_eth_runt : (Instr.ethRunt (List.replicate 14 0)).wf 0x0a000202 = false := by decide
theorem test_wf_refuses_arp_short : (Instr.arpShort 0 0 (List.replicate 28 0)).wf 0x0a000202 = false := by decide
theorem test_wf_refuses_arp_badfmt_good_format :
    (Instr.arpBadfmt 0 0 1 0x0800 6 4 (List.replicate 22 0)).wf 0x0a000202 = false := by decide
theorem test_wf_refuses_arp_badfmt_short : (Instr.arpBadfmt 0 0 6 0x0800 6 4 (List.replicate 21 0)).wf 0x0a000202 = false := by
  decide
theorem test_wf_refuses_arp_badfmt_long : (Instr.arpBadfmt 0 0 6 0x0800 6 4 (List.replicate 2029 0)).wf 0x0a000202 = false := by
  simp only [Instr.wf, List.length_replicate, Config.maxFrame]; decide
theorem test_wf_refuses_arp_req_match : (Instr.arpReqMatch 0 0 0 0 0 0x0a000203 []).wf 0x0a000202 = false := by decide
theorem test_wf_refuses_arp_req_match_long :
    (Instr.arpReqMatch 0 0 0 0 0 0x0a000202 (List.replicate 2007 0)).wf 0x0a000202 = false := by simp only [Instr.wf, List.length_replicate, Config.maxFrame]; decide
theorem test_wf_refuses_arp_req_other : (Instr.arpReqOther 0 0 0 0 0 0x0a000202 []).wf 0x0a000202 = false := by decide
theorem test_wf_refuses_arp_req_other_long :
    (Instr.arpReqOther 0 0 0 0 0 0x0a000203 (List.replicate 2007 0)).wf 0x0a000202 = false := by simp only [Instr.wf, List.length_replicate, Config.maxFrame]; decide
theorem test_wf_refuses_arp_nonreq : (Instr.arpNonreq 0 0 1 0 0 0 0 []).wf 0x0a000202 = false := by decide
theorem test_wf_refuses_arp_nonreq_long :
    (Instr.arpNonreq 0 0 2 0 0 0 0 (List.replicate 2007 0)).wf 0x0a000202 = false := by simp only [Instr.wf, List.length_replicate, Config.maxFrame]; decide
theorem test_wf_refuses_ipv4_short : (Instr.ipv4Short 0 0 (List.replicate 20 0)).wf 0x0a000202 = false := by decide
theorem test_wf_refuses_ipv4_badihl : (Instr.ipv4Badihl 0 0 4 5 (List.replicate 19 0)).wf 0x0a000202 = false := by decide
theorem test_wf_refuses_ipv4_badihl_short : (Instr.ipv4Badihl 0 0 4 4 (List.replicate 18 0)).wf 0x0a000202 = false := by decide
theorem test_wf_refuses_ipv4_badihl_long : (Instr.ipv4Badihl 0 0 4 4 (List.replicate 2034 0)).wf 0x0a000202 = false := by
  simp only [Instr.wf, List.length_replicate, Config.maxFrame]; decide
theorem test_wf_refuses_ipv4_trunc : (Instr.ipv4Trunc 0 0 4 4 (List.replicate 19 0)).wf 0x0a000202 = false := by decide
theorem test_wf_refuses_ipv4_trunc_short : (Instr.ipv4Trunc 0 0 4 6 (List.replicate 18 0)).wf 0x0a000202 = false := by decide
theorem test_wf_refuses_ipv4_trunc_whole : (Instr.ipv4Trunc 0 0 4 6 (List.replicate 23 0)).wf 0x0a000202 = false := by decide
theorem test_wf_refuses_ipv4_header_ihl : (ip 6 4 []).wf = false := by decide
theorem test_wf_refuses_ipv4_header_options : (ip 6 6 [0, 0, 0]).wf = false := by decide
theorem test_wf_refuses_ipv4_nonudp : (Instr.ipv4Nonudp 0 0 (ip 17 5 []) []).wf 0x0a000202 = false := by decide
theorem test_wf_refuses_ipv4_nonudp_long : (Instr.ipv4Nonudp 0 0 (ip 6 5 []) (List.replicate 2015 0)).wf 0x0a000202 = false := by
  simp only [Instr.wf, List.length_replicate, Config.maxFrame]; decide
theorem test_wf_refuses_udp_short_protocol : (Instr.udpShort 0 0 (ip 6 5 []) []).wf 0x0a000202 = false := by decide
theorem test_wf_refuses_udp_short : (Instr.udpShort 0 0 (ip 17 5 []) (List.replicate 8 0)).wf 0x0a000202 = false := by decide
theorem test_wf_refuses_ipv4_udp_protocol : (Instr.ipv4Udp 0 0 (ip 6 5 []) ⟨0, 0, 8, 0⟩ []).wf 0x0a000202 = false := by decide
theorem test_wf_refuses_ipv4_udp_long :
    (Instr.ipv4Udp 0 0 (ip 17 5 []) ⟨0, 0, 8, 0⟩ (List.replicate 2007 0)).wf 0x0a000202 = false := by
  simp only [Instr.wf, List.length_replicate, Config.maxFrame]; decide
theorem test_wf_refuses_eth_other : (Instr.ethOther 0 0 0x0806 []).wf 0x0a000202 = false ∧ (Instr.ethOther 0 0 0x0800 []).wf 0x0a000202 = false := by
  decide
theorem test_wf_refuses_eth_other_long : (Instr.ethOther 0 0 0x86dd (List.replicate 2035 0)).wf 0x0a000202 = false := by
  simp only [Instr.wf, List.length_replicate, Config.maxFrame]; decide

/-- One well-formed instruction of each constructor: the hypothesis of `DecodingAnEncodedInstructionGivesItBack`. -/
theorem witness_DecodingAnEncodedInstructionGivesItBack :
    ∀ i ∈ [Instr.ethRunt (List.replicate 13 0), .arpShort 0 0 (List.replicate 27 0), .arpBadfmt 0 0 6 0x0800 6 4 (List.replicate 22 0),
        .arpReqMatch 0 0 0 0 0 0x0a000202 [], .arpReqOther 0 0 0 0 0 0x0a000203 [], .arpNonreq 0 0 2 0 0 0 0 [],
        .ipv4Short 0 0 (List.replicate 19 0), .ipv4Badihl 0 0 4 4 (List.replicate 19 0), .ipv4Trunc 0 0 4 15 (List.replicate 58 0),
        .ipv4Nonudp 0 0 (ip 6 15 (List.replicate 40 0)) [], .udpShort 0 0 (ip 17 5 []) (List.replicate 7 0),
        .ipv4Udp 0 0 (ip 17 6 [1, 2, 3, 4]) ⟨0, 65535, 9, 0⟩ [0x78], .ethOther 0 0 0x8100 [], .txArpReply 0 0 0 0],
      i.wf 0x0a000202 = true := by decide

/-! ## Operations -/

/-- A read past `L` (R67): the last two bytes, then one past. -/
theorem test_read_bound : (readU16 scenario1 40).toOption = some 0x0202 ∧ (readU16 scenario1 41).toOption = none := by decide

/-- The four rows of 95 section 2.5. -/
theorem test_encode_arp_reply :
    encodeArpReply 0xaabbccddeeff 0x0a00020f 0x52550a000202 0x0a000202 = reply1
    ∧ encodeArpReply 0 0 0 0
        = List.replicate 12 0 ++ [0x08, 0x06, 0x00, 0x01, 0x08, 0x00, 0x06, 0x04, 0x00, 0x02] ++ List.replicate 38 0
    ∧ encodeArpReply 0xffffffffffff 0xffffffff 0xffffffffffff 0xffffffff
        = List.replicate 12 0xff ++ [0x08, 0x06, 0x00, 0x01, 0x08, 0x00, 0x06, 0x04, 0x00, 0x02] ++ List.replicate 20 0xff
          ++ List.replicate 18 0
    ∧ encodeArpReply 0x01005e000001 0xe0000001 0x020000000001 0xc0a80101
        = [0x01, 0x00, 0x5e, 0x00, 0x00, 0x01, 0x02, 0x00, 0x00, 0x00, 0x00, 0x01, 0x08, 0x06, 0x00, 0x01, 0x08, 0x00, 0x06, 0x04,
            0x00, 0x02, 0x02, 0x00, 0x00, 0x00, 0x00, 0x01, 0xc0, 0xa8, 0x01, 0x01, 0x01, 0x00, 0x5e, 0x00, 0x00, 0x01, 0xe0, 0x00,
            0x00, 0x01] ++ List.replicate 18 0 := by decide

/-- The `plen` column of 95 section 2.4, `n = 8` first and then `n = 13`. -/
theorem test_udp_clamp :
    udpPayloadLength 13 8 = 0
    ∧ [13, 8, 9, 7, 0, 14, 65535].map (fun len => udpPayloadLength len 13) = [5, 0, 1, 0, 0, 5, 5] := by decide

/-- The malformed frames of 95 P4, with reporting and without (R256). -/
theorem test_malformed_outputs :
    ([scenario1.take 41, scenario1.set 15 6, scenario3.take 33, scenario3.set 14 0x44, scenario3.set 14 0x4f, scenario3.take 41,
        scenario1.take 13].map fun F => (processFrame true 0x52550a000202 0x0a000202 F).toOption)
      = [some (.malformedArpShort, [.ev (.decodeError 9)]), some (.malformedArpFormat, [.ev (.decodeError 10)]),
          some (.malformedIpv4Short, [.ev (.decodeError 11)]), some (.malformedIpv4Ihl, [.ev (.decodeError 12)]),
          some (.malformedIpv4Trunc, [.ev (.decodeError 13)]), some (.malformedUdpShort, [.ev (.decodeError 14)]),
          some (.malformedEth, [])]
    ∧ (processFrame false 0x52550a000202 0x0a000202 (scenario1.take 41)).toOption = some (.malformedArpShort, []) := by decide

/-! ## One step of each instruction (95 sections 2.7 and 3) -/

theorem test_step_eth_runt :
    after (offering (scenario1.take 13)) = some { base with trace := [.malformedEth] } := by decide
theorem test_step_arp_short : (after (offering (scenario1.take 41))).map State.trace = some [.malformedArpShort] := by decide
theorem test_step_arp_badfmt : (after (offering (scenario1.set 15 6))).map State.trace = some [.malformedArpFormat] := by decide
theorem test_step_arp_req_match :
    after (offering scenario1) = some { base with pending := [observed1, tx1, sent1], trace := [.arpReplied] } := by decide
theorem test_step_arp_req_other :
    after (offering (scenario1.set 41 0x63))
      = some { base with
          pending := [.ev (.arpRequestObserved ⟨1, 0x0800, 6, 4, 1, 0xaabbccddeeff, 0x0a00020f, 0, 0x0a000263⟩)]
          trace := [.arpRequestNoMatch] } := by decide
theorem test_step_arp_nonreq : after (offering reply1) = some { base with trace := [.arpNotRequest] } := by decide
theorem test_step_ipv4_short : (after (offering (scenario3.take 33))).map State.trace = some [.malformedIpv4Short] := by decide
theorem test_step_ipv4_badihl : (after (offering (scenario3.set 14 0x44))).map State.trace = some [.malformedIpv4Ihl] := by decide
theorem test_step_ipv4_trunc : (after (offering (scenario3.set 14 0x4f))).map State.trace = some [.malformedIpv4Trunc] := by decide
theorem test_step_ipv4_nonudp : after (offering (scenario3.set 23 6)) = some { base with trace := [.ipv4NotUdp] } := by decide
theorem test_step_udp_short : (after (offering (scenario3.take 41))).map State.trace = some [.malformedUdpShort] := by decide
theorem test_step_ipv4_udp :
    after (offering optionsFrame)
      = some { base with
          pending := [.ev (.udpPacketObserved 0x0a00020f 5353 0x0a000202 5353 [0x61, 0x62, 0x63])]
          trace := [.udpReported] } := by decide
/-- `udpLength = 7` gives an empty payload, with no 16-bit wrap (95 section 2.4). -/
theorem test_step_ipv4_udp_length_7 :
    (after (offering (scenario3.set 39 7))).map State.pending
      = some [.ev (.udpPacketObserved 0x0a00020f 12345 0x0a000202 53 [])] := by decide
theorem test_step_eth_other :
    after (offering ((scenario1.set 12 0x86).set 13 0xdd)) = some { base with trace := [.ethertypeUnsupported] } := by decide
theorem test_step_tx_arp_reply :
    after (queued [tx1, sent1]) = some { base with pending := [sent1], observed := [tx1] } := by decide

/-! ## Run state, STOP and RESET (95 section 2.8) -/

theorem test_under_reset_a_frame_stays :
    after { offering scenario1 with resetLevel := true } = some { offering scenario1 with resetLevel := true } := by decide
theorem test_reset_release :
    after { base with resetLevel := true, host := [.reset false], idMac := 0, idIp := 0 } = some base := by decide
theorem test_busy_frame_stays :
    after { queued [observed1, tx1, sent1] with ingress := [scenario3], egressReady := false, eventReady := false }
      = some { queued [observed1, tx1, sent1] with ingress := [scenario3], egressReady := false, eventReady := false } := by decide
theorem test_emit_event :
    after { queued [observed1, tx1, sent1] with egressReady := false }
      = some { queued [tx1, sent1] with egressReady := false, observed := [observed1] } := by decide
theorem test_tx_waits_for_its_port :
    after { queued [tx1, sent1] with egressReady := false } = some { queued [tx1, sent1] with egressReady := false } := by decide
theorem test_stop_with_output_pending :
    after { queued [tx1, sent1] with egressReady := false, stopLevel := true }
      = some { queued [tx1, sent1] with egressReady := false, stopLevel := true, runState := runStopping } := by decide
theorem test_stopping_emits :
    after { queued [tx1, sent1] with stopLevel := true, runState := runStopping }
      = some { queued [sent1] with stopLevel := true, runState := runStopping, observed := [tx1] } := by decide
theorem test_stopping_ends :
    after { queued [sent1] with stopLevel := true, runState := runStopping }
      = some { base with stopLevel := true, runState := runStopped, observed := [sent1] } := by decide
theorem test_stopped_takes_no_frame :
    after { offering scenario1 with runState := runStopped } = some { offering scenario1 with runState := runStopped } := by decide
theorem test_stop_deasserted_stays_stopped :
    after { base with runState := runStopped, stopLevel := true, host := [.stop false] }
      = some { base with runState := runStopped } := by decide
theorem test_stop_when_idle :
    after { base with stopLevel := true } = some { base with stopLevel := true, runState := runStopped } := by decide
theorem test_reset_asserted_discards :
    after { queued [tx1, sent1] with runState := runStopping, host := [.reset true] }
      = some { base with resetLevel := true } := by decide
theorem test_identity_is_latched :
    (after { offering scenario1 with cfgIdIp := 0x0a000203 }).map State.pending = some [observed1, tx1, sent1] := by decide

/-- The model faults (R281). -/
theorem test_fault_run_state : faultOf (step { base with runState := runIllegal }) = some .illegalRunState := by decide
theorem test_fault_overflow : faultOf (step (queued [observed1, tx1, sent1, sent1])) = some .pendingOverflow := by decide
/-- A STOPPED state ends a run (R329), but not one that shows a model fault (R281). -/
theorem test_stopped_is_final : RunOver { base with runState := runStopped } := ⟨by decide, .inl rfl⟩
theorem test_faulted_state_is_not_final :
    ¬ RunOver { queued [observed1, tx1, sent1, sent1] with runState := runStopped } := fun h => absurd h.1 (by decide)
theorem test_fault_reserved : faultOf (step (queued [.ev (.decodeError 6)])) = some .reservedDisposition := by decide

/-! ## Witnesses: for each statement with hypotheses, a state and operands that meet them, each clause at a boundary -/

theorem ok_of {ε α : Type} {x : Except ε α} {a : α} (h : x.toOption = some a) : x = .ok a := by
  cases x with
  | ok b => simpa [Except.toOption] using h
  | error e => simp [Except.toOption] at h

theorem next_of {o : Host.Outcome State Fault Refusal} {s : State} (h : nextOf o = some s) : o = .next s := by
  cases o with
  | next t => simpa [nextOf] using h
  | fault f => simp [nextOf] at h
  | refused r => simp [nextOf] at h

theorem canAccept_offering (F : List Byte) : CanAccept (offering F) := ⟨rfl, rfl, rfl, by simp [offering]⟩

theorem witness_EthRuntIsDroppedSilently :
    (loadIfb (scenario1.take 13)).length < 14 ∧ CanAccept (offering (scenario1.take 13)) :=
  ⟨by decide, canAccept_offering _⟩

theorem witness_ArpShortIsDropped :
    HasEtherType (loadIfb (scenario1.take 41)) etherArp ∧ (loadIfb (scenario1.take 41)).length < 42
      ∧ CanAccept (offering (scenario1.take 41)) :=
  ⟨ok_of (by decide), by decide, canAccept_offering _⟩

theorem witness_ArpBadFormatIsDropped :
    HasEtherType (loadIfb (scenario1.set 15 6)) etherArp ∧ 42 ≤ (loadIfb (scenario1.set 15 6)).length
      ∧ readU16 (loadIfb (scenario1.set 15 6)) 14 = .ok 6 ∧ readU16 (loadIfb (scenario1.set 15 6)) 16 = .ok 0x0800
      ∧ readU8 (loadIfb (scenario1.set 15 6)) 18 = .ok 6 ∧ readU8 (loadIfb (scenario1.set 15 6)) 19 = .ok 4
      ∧ ¬ ((6 : U16) = 1 ∧ (0x0800 : U16) = 0x0800 ∧ (6 : U8) = 6 ∧ (4 : U8) = 4)
      ∧ CanAccept (offering (scenario1.set 15 6)) :=
  ⟨ok_of (by decide), by decide, ok_of (by decide), ok_of (by decide), ok_of (by decide), ok_of (by decide), by decide,
    canAccept_offering _⟩

theorem arpFormatValid_scenario1 : ArpFormatValid (loadIfb scenario1) 1 :=
  ⟨ok_of (by decide), by decide, ok_of (by decide), ok_of (by decide), ok_of (by decide), ok_of (by decide), ok_of (by decide)⟩

theorem witness_MatchedArpRequestIsAnswered :
    ArpFormatValid (loadIfb scenario1) 1 ∧ readMac (loadIfb scenario1) 22 = .ok 0xaabbccddeeff
      ∧ readIp (loadIfb scenario1) 28 = .ok 0x0a00020f ∧ readMac (loadIfb scenario1) 32 = .ok 0
      ∧ readIp (loadIfb scenario1) 38 = .ok (offering scenario1).idIp ∧ CanAccept (offering scenario1) :=
  ⟨arpFormatValid_scenario1, ok_of (by decide), ok_of (by decide), ok_of (by decide), ok_of (by decide), canAccept_offering _⟩

/-- The identity one bit away from the request's target (95 section 2.6). -/
theorem witness_OtherArpRequestIsObservedOnly :
    ArpFormatValid (loadIfb scenario1) 1 ∧ readMac (loadIfb scenario1) 22 = .ok 0xaabbccddeeff
      ∧ readIp (loadIfb scenario1) 28 = .ok 0x0a00020f ∧ readMac (loadIfb scenario1) 32 = .ok 0
      ∧ readIp (loadIfb scenario1) 38 = .ok 0x0a000202 ∧ (0x0a000202 : Ip) ≠ 0x0a000203
      ∧ CanAccept { offering scenario1 with idIp := 0x0a000203 } :=
  ⟨arpFormatValid_scenario1, ok_of (by decide), ok_of (by decide), ok_of (by decide), ok_of (by decide), by decide,
    canAccept_offering _⟩

/-- Each arm, once with `ID_IP` and once with another address. -/
theorem witness_RequestArmsAnswerForTheIdentityOnly :
    CanAccept (offering scenario1)
      ∧ ∀ tpa : Ip, tpa = 0x0a000202 ∨ tpa = 0x0a000203 →
        ∃ i j : Instr, i = .arpReqMatch 0 0 1 2 3 tpa [] ∧ j = .arpReqOther 0 0 1 2 3 tpa [] :=
  ⟨canAccept_offering _, fun _ _ => ⟨_, _, rfl, rfl⟩⟩

theorem witness_ArpNonRequestIsIgnored :
    ArpFormatValid (loadIfb reply1) 2 ∧ (2 : U16) ≠ 1 ∧ CanAccept (offering reply1) :=
  ⟨⟨ok_of (by decide), by decide, ok_of (by decide), ok_of (by decide), ok_of (by decide), ok_of (by decide), ok_of (by decide)⟩,
    by decide, canAccept_offering _⟩

theorem witness_Ipv4ShortIsDropped :
    HasEtherType (loadIfb (scenario3.take 33)) etherIpv4 ∧ (loadIfb (scenario3.take 33)).length < 34
      ∧ CanAccept (offering (scenario3.take 33)) :=
  ⟨ok_of (by decide), by decide, canAccept_offering _⟩

theorem witness_Ipv4BadIhlIsDropped :
    HasEtherType (loadIfb ((scenario3.set 14 0x44).take 34)) etherIpv4 ∧ 34 ≤ (loadIfb ((scenario3.set 14 0x44).take 34)).length
      ∧ readU8 (loadIfb ((scenario3.set 14 0x44).take 34)) 14 = .ok 0x44 ∧ (ihlOf 0x44).toNat < 5
      ∧ CanAccept (offering ((scenario3.set 14 0x44).take 34)) :=
  ⟨ok_of (by decide), by decide, ok_of (by decide), by decide, canAccept_offering _⟩

/-- `IHL = 6` cut to 23 of its 24 bytes (95 section 2.3). -/
theorem witness_Ipv4TruncatedIsDropped :
    HasEtherType (loadIfb ((scenario3.set 14 0x46).take 37)) etherIpv4 ∧ 34 ≤ (loadIfb ((scenario3.set 14 0x46).take 37)).length
      ∧ readU8 (loadIfb ((scenario3.set 14 0x46).take 37)) 14 = .ok 0x46 ∧ 5 ≤ (ihlOf 0x46).toNat
      ∧ (loadIfb ((scenario3.set 14 0x46).take 37)).length < 14 + 4 * (ihlOf 0x46).toNat
      ∧ CanAccept (offering ((scenario3.set 14 0x46).take 37)) :=
  ⟨ok_of (by decide), by decide, ok_of (by decide), by decide, by decide, canAccept_offering _⟩

theorem witness_Ipv4NonUdpIsIgnored :
    Ipv4Valid (loadIfb ((scenario3.set 23 6).take 34)) 0x45 6 ∧ (6 : U8) ≠ 17 ∧ CanAccept (offering ((scenario3.set 23 6).take 34)) :=
  ⟨⟨ok_of (by decide), by decide, ok_of (by decide), by decide, by decide, ok_of (by decide)⟩, by decide, canAccept_offering _⟩

theorem witness_UdpShortIsDropped :
    Ipv4Valid (loadIfb (scenario3.take 41)) 0x45 17 ∧ (loadIfb (scenario3.take 41)).length - 14 - 4 * (ihlOf 0x45).toNat < 8
      ∧ CanAccept (offering (scenario3.take 41)) :=
  ⟨⟨ok_of (by decide), by decide, ok_of (by decide), by decide, by decide, ok_of (by decide)⟩, by decide, canAccept_offering _⟩

theorem witness_UdpDatagramIsReported :
    Ipv4Valid (loadIfb optionsFrame) 0x47 17 ∧ 8 ≤ (loadIfb optionsFrame).length - 14 - 4 * (ihlOf 0x47).toNat
      ∧ readIp (loadIfb optionsFrame) 26 = .ok 0x0a00020f ∧ readIp (loadIfb optionsFrame) 30 = .ok 0x0a000202
      ∧ readU16 (loadIfb optionsFrame) (14 + 4 * (ihlOf 0x47).toNat) = .ok 5353
      ∧ readU16 (loadIfb optionsFrame) (14 + 4 * (ihlOf 0x47).toNat + 2) = .ok 5353
      ∧ readU16 (loadIfb optionsFrame) (14 + 4 * (ihlOf 0x47).toNat + 4) = .ok 11 ∧ CanAccept (offering optionsFrame) :=
  ⟨⟨ok_of (by decide), by decide, ok_of (by decide), by decide, by decide, ok_of (by decide)⟩, by decide, ok_of (by decide),
    ok_of (by decide), ok_of (by decide), ok_of (by decide), ok_of (by decide), canAccept_offering _⟩

/-- A frame of the header alone, 14 bytes. -/
theorem witness_OtherEtherTypeIsIgnored :
    14 ≤ (loadIfb ((scenario1.set 12 0x86).take 14)).length ∧ HasEtherType (loadIfb ((scenario1.set 12 0x86).take 14)) 0x8606
      ∧ (0x8606 : U16) ≠ 0x0806 ∧ (0x8606 : U16) ≠ 0x0800 ∧ CanAccept (offering ((scenario1.set 12 0x86).take 14)) :=
  ⟨by decide, ok_of (by decide), by decide, by decide, canAccept_offering _⟩

/-- A reply with more to send in RUNNING, and one that is the last item in STOPPING. -/
theorem witness_ReplyFrameLeaves :
    CanEmit (queued [tx1, sent1]) (.tx (encodeArpReply 0xaabbccddeeff 0x0a00020f 0x52550a000202 0x0a000202))
      ∧ CanEmit { queued [tx1] with runState := runStopping }
          (.tx (encodeArpReply 0xaabbccddeeff 0x0a00020f 0x52550a000202 0x0a000202)) :=
  ⟨⟨rfl, .inl rfl, by decide, by decide, by decide, by decide⟩, ⟨rfl, .inr rfl, by decide, by decide, by decide, by decide⟩⟩

theorem witness_EncodingADecodedFrameGivesItBack :
    decode 0x0a000202 .ingress scenario1 = .ok (.arpReqMatch 0xffffffffffff 0xaabbccddeeff 0xaabbccddeeff 0x0a00020f 0 0x0a000202 [])
      ∧ decode 0x0a000202 .egress reply1 = .ok (.txArpReply 0xaabbccddeeff 0x0a00020f 0x52550a000202 0x0a000202) :=
  ⟨ok_of (by decide), ok_of (by decide)⟩

/-- A write that ends at the last byte: at its last offset, and just before its first. -/
theorem witness_WritesChangeTheirBytesOnly :
    efbZero.length = 60 ∧ 56 + 4 ≤ 60 ∧ ((59 < 60 ∧ 56 ≤ 59 ∧ 59 < 56 + 4) ∧ (55 < 60 ∧ ¬ (56 ≤ 55 ∧ 55 < 56 + 4))) := by decide

theorem witness_DecodeEthernetDropsRuntsOnly :
    (scenario1.take 13).length < 14 ∧ 14 ≤ (scenario1.take 14).length := by decide

theorem witness_DecodeArpDropsExactlyThese :
    14 + 27 = (scenario1.take 41).length ∧ 27 < 28 ∧ 14 + 28 = (scenario1.set 15 6).length
      ∧ (readU16 (scenario1.set 15 6) 14).toOption ≠ some 1 ∧ 14 + 28 = scenario1.length := by decide

/-- One byte short; `IHL = 4`; `IHL = 6` with 23 bytes; `IHL = 5` with 20. -/
theorem witness_DecodeIpv4DropsExactlyThese :
    (14 + 19 = (scenario3.take 33).length ∧ 19 < 20)
      ∧ (14 + 20 = ((scenario3.set 14 0x44).take 34).length ∧ (readU8 ((scenario3.set 14 0x44).take 34) 14).toOption = some 0x44
          ∧ (ihlOf 0x44).toNat < 5)
      ∧ (14 + 23 = ((scenario3.set 14 0x46).take 37).length ∧ (readU8 ((scenario3.set 14 0x46).take 37) 14).toOption = some 0x46
          ∧ 5 ≤ (ihlOf 0x46).toNat ∧ 23 < 4 * (ihlOf 0x46).toNat)
      ∧ (14 + 20 = (scenario3.take 34).length ∧ (readU8 (scenario3.take 34) 14).toOption = some 0x45 ∧ 5 ≤ (ihlOf 0x45).toNat
          ∧ 4 * (ihlOf 0x45).toNat ≤ 20) := by decide

theorem witness_DecodeUdpClampsItsPayload :
    (34 + 7 = (scenario3.take 41).length ∧ 7 < 8) ∧ (34 + 8 = (scenario3.take 42).length ∧ 8 ≤ 8) := by decide

/-- `udpLength` 13 with 5 bytes there, 14 with 5, and 7 with none. -/
theorem witness_UdpClampCases :
    (8 ≤ 13 ∧ 8 ≤ (13 : U16).toNat ∧ (13 : U16).toNat - 8 ≤ 13 - 8)
      ∧ (8 ≤ (14 : U16).toNat ∧ 13 - 8 < (14 : U16).toNat - 8) ∧ (8 ≤ 8 ∧ (7 : U16).toNat < 8) := by decide

theorem witness_ArmsRefineProcessFrame :
    (offering scenario1).modelFault = none
      ∧ decode (offering scenario1).idIp .ingress scenario1
          = .ok (.arpReqMatch 0xffffffffffff 0xaabbccddeeff 0xaabbccddeeff 0x0a00020f 0 0x0a000202 []) :=
  ⟨by decide, ok_of (by decide)⟩

theorem witness_OutputsAreBounded :
    processFrame false 0x52550a000202 0x0a000202 (loadIfb scenario1) = .ok (.arpReplied, [observed1, tx1, sent1])
      ∧ processFrame false 0x52550a000202 0x0a000202 (loadIfb (scenario3.set 39 8))
          = .ok (.udpReported, [.ev (.udpPacketObserved 0x0a00020f 12345 0x0a000202 53 [])]) :=
  ⟨ok_of (by decide), ok_of (by decide)⟩

/-- Reported, not reported, and the runt that never is. -/
theorem witness_DecodeErrorExactlyWhenReported :
    processFrame true 0 0 (loadIfb (scenario1.take 41)) = .ok (.malformedArpShort, [.ev (.decodeError 9)])
      ∧ processFrame false 0 0 (loadIfb (scenario1.take 41)) = .ok (.malformedArpShort, [])
      ∧ processFrame true 0 0 (loadIfb (scenario1.take 13)) = .ok (.malformedEth, []) :=
  ⟨ok_of (by decide), ok_of (by decide), ok_of (by decide)⟩

/-- Scenario 1, and the same to another Ethernet destination and with a trailer. -/
theorem witness_ArpFramesAreDecidedByTheirMessage :
    HasEtherType (loadIfb scenario1) etherArp ∧ 42 ≤ scenario1.length ∧ 42 ≤ ((scenario1.set 0 1) ++ [1, 2]).length
      ∧ (scenario1.drop 12).take 30 = (((scenario1.set 0 1) ++ [1, 2]).drop 12).take 30 :=
  ⟨ok_of (by decide), by decide, by decide, by decide⟩

/-- Scenario 3, and the same with version 6, another total length and another UDP checksum. -/
theorem witness_Ipv4FramesAreDecidedByTheReadFields :
    scenario3.length = (((scenario3.set 14 0x65).set 17 5).set 40 1).length ∧ 34 ≤ scenario3.length ∧ scenario3.length ≤ 2048
      ∧ HasEtherType scenario3 etherIpv4 ∧ HasEtherType (((scenario3.set 14 0x65).set 17 5).set 40 1) etherIpv4
      ∧ readU8 scenario3 14 = .ok 0x45 ∧ readU8 (((scenario3.set 14 0x65).set 17 5).set 40 1) 14 = .ok 0x65
      ∧ ihlOf 0x45 = ihlOf 0x65 ∧ readU8 scenario3 23 = readU8 (((scenario3.set 14 0x65).set 17 5).set 40 1) 23
      ∧ (scenario3.drop 26).take 8 = ((((scenario3.set 14 0x65).set 17 5).set 40 1).drop 26).take 8
      ∧ (scenario3.drop (14 + 4 * (ihlOf 0x45).toNat)).take 6
          = ((((scenario3.set 14 0x65).set 17 5).set 40 1).drop (14 + 4 * (ihlOf 0x45).toNat)).take 6
      ∧ scenario3.drop (14 + 4 * (ihlOf 0x45).toNat + 8)
          = (((scenario3.set 14 0x65).set 17 5).set 40 1).drop (14 + 4 * (ihlOf 0x45).toNat + 8) :=
  ⟨by decide, by decide, by decide, ok_of (by decide), ok_of (by decide), ok_of (by decide), ok_of (by decide), by decide,
    (ok_of (a := 17) (by decide)).trans (ok_of (by decide)).symm, by decide, by decide, by decide⟩

/-- Two frames that differ in a byte past offset 2047 only. -/
theorem witness_OutputsDependOnFrameAndIdentityOnly :
    CanAccept (offering scenario1) ∧ CanAccept { offering scenario1 with observed := [sent1], eventReady := false }
      ∧ (offering scenario1).idMac = ({ offering scenario1 with observed := [sent1], eventReady := false } : State).idMac
      ∧ (offering scenario1).idIp = ({ offering scenario1 with observed := [sent1], eventReady := false } : State).idIp
      ∧ loadIfb (List.replicate 2048 0 ++ [1]) = loadIfb (List.replicate 2048 0 ++ [2]) :=
  ⟨canAccept_offering _, canAccept_offering _, rfl, rfl, 
    (List.take_left' List.length_replicate).trans (List.take_left' List.length_replicate).symm⟩

/-- One of each port. -/
theorem witness_InstructionsLeaveTheRestAlone :
    exec (.ethOther 1 2 0x86dd []) (offering scenario1) = .next { base with trace := [.ethertypeUnsupported] }
      ∧ exec (.txArpReply 0xaabbccddeeff 0x0a00020f 0x52550a000202 0x0a000202) (queued [tx1, sent1])
          = .next { queued [sent1] with observed := [tx1] } :=
  ⟨next_of (by decide), next_of (by decide)⟩

theorem witness_DisabledInstructionsHold :
    (queued [sent1]).modelFault = none ∧ ¬ CanAccept (queued [sent1])
      ∧ ¬ CanEmit (queued [sent1]) (.tx (encodeArpReply 0 0 0 0)) := by
  refine ⟨by decide, fun h => ?_, fun h => ?_⟩
  · exact absurd h.2.2.1 (by decide)
  · exact absurd h.2.2.1 (by decide)

theorem witness_ModelFaultsStopEverything :
    ({ base with runState := 0b11 } : State).runState = 0b11
      ∧ ((queued [observed1, tx1, sent1, sent1]).runState ≠ 0b11 ∧ 3 < (queued [observed1, tx1, sent1, sent1]).pending.length)
      ∧ ∀ code : BitVec 4, code = 6 ∨ code = 7 ∨ code = 15 →
          (queued [.ev (.decodeError code)]).runState ≠ 0b11 ∧ (queued [.ev (.decodeError code)]).pending.length ≤ 3
            ∧ .ev (.decodeError code) ∈ (queued [.ev (.decodeError code)]).pending :=
  ⟨rfl, by decide, fun code _ => ⟨by simp [queued, base, runRunning], by simp [queued], by simp [queued]⟩⟩

/-- With STOP deasserted, and with it asserted. -/
theorem witness_StepRunsTheOfferedFrame :
    ∀ b : Bool, ({ offering reply1 with stopLevel := b } : State).nfbState = some { offering reply1 with stopLevel := b }
      ∧ CanAccept { offering reply1 with stopLevel := b } ∧ ({ offering reply1 with stopLevel := b } : State).ingress = [reply1]
      ∧ decode (offering reply1).idIp .ingress reply1
          = .ok (.arpNonreq 0xaabbccddeeff 0x52550a000202 2 0x52550a000202 0x0a000202 0xaabbccddeeff 0x0a00020f
              (List.replicate 18 0)) :=
  fun _ => ⟨rfl, canAccept_offering _, rfl, ok_of (by decide)⟩

/-- With STOP deasserted; asserted in STOPPING; asserted in RUNNING. -/
theorem witness_StepRunsTheReplyAtTheHead :
    decode (queued [tx1, sent1]).idIp .egress reply1 = .ok (.txArpReply 0xaabbccddeeff 0x0a00020f 0x52550a000202 0x0a000202)
      ∧ (CanEmit (queued [tx1, sent1]) (.tx reply1) ∧ (queued [tx1, sent1]).nfbState = some (queued [tx1, sent1])
          ∧ (queued [tx1, sent1]).stopLevel = false)
      ∧ (CanEmit { queued [tx1, sent1] with stopLevel := true, runState := runStopping } (.tx reply1))
      ∧ (CanEmit { queued [tx1, sent1] with stopLevel := true } (.tx reply1)) :=
  ⟨ok_of (by decide), ⟨⟨rfl, .inl rfl, rfl, rfl, by decide, by decide⟩, rfl, rfl⟩, ⟨rfl, .inr rfl, rfl, rfl, by decide, by decide⟩,
    ⟨rfl, .inl rfl, rfl, rfl, by decide, by decide⟩⟩

/-- An event in RUNNING; the last item in STOPPING, with STOP still asserted and the host waiting. -/
theorem witness_HeadItemLeavesInOrder :
    ((queued [observed1, tx1, sent1]).nfbState = some (queued [observed1, tx1, sent1])
        ∧ CanEmit (queued [observed1, tx1, sent1]) observed1 ∧ (queued [observed1, tx1, sent1]).stopLevel = false)
      ∧ (({ queued [sent1] with runState := runStopping, stopLevel := true, host := [.wait] } : State).nfbState
            = some { queued [sent1] with runState := runStopping, stopLevel := true }
          ∧ CanEmit { queued [sent1] with runState := runStopping, stopLevel := true, host := [.wait] } sent1) :=
  ⟨⟨rfl, ⟨rfl, .inl rfl, rfl, rfl, by decide, by decide⟩, rfl⟩, rfl, ⟨rfl, .inr rfl, rfl, rfl, by decide, by decide⟩⟩

theorem witness_OutputHoldKeepsEverything :
    ({ queued [tx1, sent1] with egressReady := false } : State).nfbState = some { queued [tx1, sent1] with egressReady := false }
      ∧ ({ queued [tx1, sent1] with egressReady := false } : State).modelFault = none
      ∧ Held { queued [tx1, sent1] with egressReady := false } :=
  ⟨rfl, by decide, tx1, [sent1], rfl, rfl⟩

/-- A step that takes a frame, and one that takes none. -/
theorem witness_OneFrameAtATime :
    ((offering reply1).nfbState = some (offering reply1) ∧ step (offering reply1) = .next { base with trace := [.arpNotRequest] })
      ∧ (base.nfbState = some base ∧ step base = .next base) :=
  ⟨⟨rfl, next_of (by decide)⟩, rfl, next_of (by decide)⟩

/-- Nothing pending, and one item the host does not take. -/
theorem witness_StopEndsOrDrainsTheRun :
    ∀ q : List OutItem, q = [] ∨ q = [sent1] →
      ({ queued q with stopLevel := true, eventReady := false } : State).nfbState
          = some { queued q with stopLevel := true, eventReady := false }
        ∧ ({ queued q with stopLevel := true, eventReady := false } : State).modelFault = none
        ∧ ({ queued q with stopLevel := true, eventReady := false } : State).resetLevel = false
        ∧ ({ queued q with stopLevel := true, eventReady := false } : State).runState = runRunning
        ∧ ({ queued q with stopLevel := true, eventReady := false } : State).headReady = false
        ∧ ({ queued q with stopLevel := true, eventReady := false } : State).acceptEnabled = false := by
  rintro q (rfl | rfl) <;> exact ⟨rfl, by decide, rfl, rfl, by decide, by decide⟩

/-- With an item that can leave, and with a frame that can be accepted. -/
theorem witness_StopAndOtherStepInEitherOrder :
    (({ queued [sent1] with stopLevel := true } : State).nfbState = some { queued [sent1] with stopLevel := true }
        ∧ ({ queued [sent1] with stopLevel := true } : State).modelFault = none
        ∧ ({ queued [sent1] with stopLevel := true } : State).runState = runRunning
        ∧ ({ queued [sent1] with stopLevel := true } : State).headReady = true)
      ∧ (({ offering scenario1 with stopLevel := true } : State).nfbState = some { offering scenario1 with stopLevel := true }
        ∧ ({ offering scenario1 with stopLevel := true } : State).modelFault = none
        ∧ ({ offering scenario1 with stopLevel := true } : State).runState = runRunning
        ∧ ({ offering scenario1 with stopLevel := true } : State).acceptEnabled = true) :=
  ⟨⟨rfl, by decide, rfl, by decide⟩, rfl, by decide, rfl, by decide⟩

theorem witness_OnlyResetLeavesStopped :
    step { base with runState := runStopped, stopLevel := true, host := [.stop false] } = .next { base with runState := runStopped }
      ∧ ∀ level rest, ({ base with runState := runStopped, stopLevel := true, host := [.stop false] } : State).host
          ≠ .reset level :: rest :=
  ⟨next_of (by decide), fun _ _ h => by simp at h⟩

theorem witness_NoDispositionStopsTheLoop :
    (offering scenario1).host = [] ∧ CanAccept (offering scenario1) ∧ (offering scenario1).ingress = [scenario1]
      ∧ (offering scenario1).stopLevel = false ∧ (offering scenario1).egressReady = true ∧ (offering scenario1).eventReady = true :=
  ⟨rfl, canAccept_offering _, rfl, rfl, rfl, rfl⟩

theorem witness_NothingStepsUnderReset :
    ({ offering scenario1 with resetLevel := true } : State).nfbState = some { offering scenario1 with resetLevel := true }
      ∧ ({ offering scenario1 with resetLevel := true } : State).modelFault = none :=
  ⟨rfl, by decide⟩

theorem witness_ReleaseOfResetSamplesTheIdentity :
    ({ base with resetLevel := true, host := [.reset false], cfgIdIp := 0x0a000203 } : State).modelFault = none
      ∧ ({ base with resetLevel := true, host := [.reset false], cfgIdIp := 0x0a000203 } : State).host = [.reset false] :=
  ⟨by decide, rfl⟩

theorem witness_AssertingResetDiscardsPending :
    ({ queued [tx1, sent1] with runState := runStopping, host := [.reset true] } : State).modelFault = none
      ∧ ({ queued [tx1, sent1] with runState := runStopping, host := [.reset true] } : State).resetLevel = false
      ∧ ({ queued [tx1, sent1] with runState := runStopping, host := [.reset true] } : State).host = [.reset true] :=
  ⟨by decide, rfl, rfl⟩

/-- A step that keeps the identity while the inputs change, and the release that takes them. -/
theorem witness_IdentityChangesOnlyAtReset :
    step { base with host := [.config 7 9] } = .next { base with cfgIdMac := 7, cfgIdIp := 9 }
      ∧ step { base with resetLevel := true, host := [.reset false], cfgIdMac := 7, cfgIdIp := 9 }
          = .next { base with idMac := 7, idIp := 9, cfgIdMac := 7, cfgIdIp := 9 } :=
  ⟨next_of (by decide), next_of (by decide)⟩

theorem witness_HostInteractionsChangeTheirPortOnly :
    ∀ a ∈ [HostAction.offer scenario1, .withdraw 0, .egressReady false, .eventReady false, .stop true, .config 7 9],
      ({ queued [sent1] with host := [a] } : State).modelFault = none ∧ ({ queued [sent1] with host := [a] } : State).host = [a] := by
  decide

/-- A machine in the middle of scenario 1's outputs: the reply has left, its event has not. -/
def busy : State := { queued [sent1] with observed := [observed1, .tx (encodeIntent ⟨0xaabbccddeeff, 0x0a00020f, 0x52550a000202, 0x0a000202⟩)] }

theorem busy_inv (r : BitVec 2) (hr : r = runRunning ∨ r = runStopping) : State.Inv { busy with runState := r } where
  runLegal := by rcases hr with rfl | rfl <;> decide
  stoppedEmpty := by rcases hr with rfl | rfl <;> exact fun h => absurd h (by decide)
  stoppingBusy := fun _ h => by simp [busy, queued] at h
  resetEmpty := fun h => by simp [busy, queued, base] at h
  pendingShape := ⟨rfl, rfl⟩
  sentPending := by
    intro intent h
    simp only [busy, queued, sent1, List.cons.injEq, OutItem.ev.injEq, Event.arpReplySent.injEq, and_true] at h
    subst h
    rfl
  sentAfterReply := by
    intro before intent after h
    have : OutItem.ev (.arpReplySent intent) ∈ (busy.observed) := by rw [show busy.observed = _ from h]; simp
    simp [busy, observed1] at this
  onlyReplies := by
    intro frame h
    simp only [busy, observed1, List.mem_cons, reduceCtorEq, OutItem.tx.injEq, List.not_mem_nil, or_false, false_or] at h
    exact ⟨_, h⟩

theorem witness_EveryStepKeepsTheInvariant :
    State.Inv { busy with runState := runStopping }
      ∧ step { busy with runState := runStopping }
          = .next { busy with pending := [], runState := runStopped, observed := busy.observed ++ [sent1] } :=
  ⟨busy_inv _ (.inr rfl), next_of (by decide)⟩

theorem witness_ReplyDecodesBackAndIsIgnored : CanAccept (offering reply1) := canAccept_offering _

theorem witness_NoStepFaultsOrRefuses : State.Inv { busy with runState := runRunning } := busy_inv _ (.inl rfl)

theorem witness_EveryOfferedFrameIsServedInOrder :
    State.Inv { busy with ingress := [scenario1, scenario3] } ∧ busy.host = [] ∧ busy.resetLevel = false ∧ busy.stopLevel = false
      ∧ busy.runState = runRunning ∧ busy.egressReady = true ∧ busy.eventReady = true :=
  ⟨{ busy_inv runRunning (.inl rfl) with }, rfl, rfl, rfl, rfl, rfl, rfl⟩

theorem witness_StoppingDrainsThenStops :
    State.Inv { busy with runState := runStopping } ∧ busy.host = [] ∧ busy.resetLevel = false ∧ busy.egressReady = true
      ∧ busy.eventReady = true :=
  ⟨busy_inv _ (.inr rfl), rfl, rfl, rfl, rfl⟩

end Sys2Proof.Tests
end

section
/-! PROOFS of the statements about the frame buffers' bytes and the UDP clamp: O22, O23 and O28. -/

namespace Sys2Proof

/-! ## Fields are big-endian -/

/-- Reading one more byte shifts the bytes before it up by one place (R17, R64). -/
theorem ofNat_beValue_concat (w : Nat) (bs : List Byte) (b : Byte) :
    BitVec.ofNat (w + 8) (beValue (bs ++ [b])) = BitVec.ofNat w (beValue bs) ++ b := by
  have hv : beValue (bs ++ [b]) = b.toNat + 2 ^ 8 * beValue bs := by
    rw [beValue_append, beValue_cons, beValue_nil]
    simp [Nat.mul_comm, Nat.add_comm]
  apply BitVec.eq_of_toNat_eq
  have hb : b.toNat < 2 ^ 8 := b.isLt
  calc (BitVec.ofNat (w + 8) (beValue (bs ++ [b]))).toNat
      = (b.toNat + 2 ^ 8 * beValue bs) % (2 ^ 8 * 2 ^ w) := by rw [BitVec.toNat_ofNat, hv, Nat.add_comm w, Nat.pow_add]
    _ = b.toNat + 2 ^ 8 * (beValue bs % 2 ^ w) := by
      rw [Nat.mod_mul, Nat.add_mul_mod_self_left, Nat.mod_eq_of_lt hb, Nat.add_mul_div_left _ _ (by decide),
        Nat.div_eq_of_lt hb, Nat.zero_add]
    _ = (BitVec.ofNat w (beValue bs) ++ b).toNat := by
      rw [BitVec.toNat_append, BitVec.toNat_ofNat, ← Nat.shiftLeft_add_eq_or_of_lt hb, Nat.shiftLeft_eq, Nat.mul_comm,
        Nat.add_comm]

theorem ofNat_beValue_two (b0 b1 : Byte) : BitVec.ofNat 16 (beValue [b0, b1]) = b0 ++ b1 := by
  simpa using ofNat_beValue_concat 8 [b0] b1

theorem ofNat_beValue_four (b0 b1 b2 b3 : Byte) :
    BitVec.ofNat 32 (beValue [b0, b1, b2, b3]) = b0 ++ b1 ++ b2 ++ b3 := by
  rw [← ofNat_beValue_two, ← ofNat_beValue_concat, ← ofNat_beValue_concat]
  rfl

theorem ofNat_beValue_six (b0 b1 b2 b3 b4 b5 : Byte) :
    BitVec.ofNat 48 (beValue [b0, b1, b2, b3, b4, b5]) = b0 ++ b1 ++ b2 ++ b3 ++ b4 ++ b5 := by
  rw [← ofNat_beValue_four, ← ofNat_beValue_concat, ← ofNat_beValue_concat]
  rfl

/-- The bytes between `pre` and `post` are read as their big-endian value. -/
theorem memRead_between (w : Nat) (pre bs post : List Byte) :
    memRead w (pre ++ bs ++ post) pre.length bs.length = .ok (BitVec.ofNat w (beValue bs)) := by
  rw [List.append_assoc]
  exact memRead_append w pre bs post _ _ rfl rfl

theorem memRead_eq_boundViolation_iff (w : Nat) (m : Ifb) (a n : Nat) :
    memRead w m a n = .error .boundViolation ↔ m.length < a + n := by
  refine ⟨fun hviol => ?_, memRead_violation w m a n⟩
  by_contra hin
  rw [memRead_ok w m a n (by omega)] at hviol
  cases hviol

/-- Settles O22: the two cases of a read by its bound, and the field readers as instances of `memRead_between`. -/
theorem readsAreBoundedAndBigEndian : Obligations.ReadsAreBoundedAndBigEndian :=
  ⟨memRead_eq_boundViolation_iff,
    fun pre post b0 b1 => ofNat_beValue_two b0 b1 ▸ memRead_between 16 pre [b0, b1] post,
    fun pre post b0 b1 b2 b3 => ofNat_beValue_four b0 b1 b2 b3 ▸ memRead_between 32 pre [b0, b1, b2, b3] post,
    fun pre post b0 b1 b2 b3 b4 b5 =>
      ofNat_beValue_six b0 b1 b2 b3 b4 b5 ▸ memRead_between 48 pre [b0, b1, b2, b3, b4, b5] post⟩

/-! ## A write sets its bytes -/

/-- Byte `i` of the `n` bytes of a value stands `n - 1 - i` places above the least significant one. -/
theorem beBytes_getElem? (n v i : Nat) (hi : i < n) :
    (beBytes n v)[i]? = some (BitVec.ofNat 8 (v / 256 ^ (n - 1 - i))) := by
  induction n generalizing i with
  | zero => omega
  | succ n ih =>
    cases i with
    | zero => rfl
    | succ i =>
      have hplace : n + 1 - 1 - (i + 1) = n - 1 - i := by omega
      rw [beBytes, List.getElem?_cons_succ, ih i (by omega), hplace]

theorem memWrite_getElem?_inside (a n v k : Nat) (m : Efb) (hm : a ≤ m.length) (hak : a ≤ k) (hkn : k < a + n) :
    (memWrite a n v m)[k]? = some (BitVec.ofNat 8 (v / 256 ^ (a + n - 1 - k))) := by
  have htake : (m.take a).length = a := List.length_take_of_le hm
  have hplace : n - 1 - (k - a) = a + n - 1 - k := by omega
  rw [memWrite, List.append_assoc, List.getElem?_append_right (by omega), htake,
    List.getElem?_append_left (by rw [beBytes_length]; omega), beBytes_getElem? n v (k - a) (by omega), hplace]

theorem memWrite_getElem?_below (a n v k : Nat) (m : Efb) (hm : a ≤ m.length) (hk : k < a) :
    (memWrite a n v m)[k]? = m[k]? := by
  have htake : (m.take a).length = a := List.length_take_of_le hm
  rw [memWrite, List.append_assoc, List.getElem?_append_left (by omega), List.getElem?_take_of_lt hk]

theorem memWrite_getElem?_above (a n v k : Nat) (m : Efb) (hm : a ≤ m.length) (hk : a + n ≤ k) :
    (memWrite a n v m)[k]? = m[k]? := by
  have hfront : (m.take a ++ beBytes n v).length = a + n := by
    rw [List.length_append, List.length_take_of_le hm, beBytes_length]
  rw [memWrite, List.getElem?_append_right (by omega), hfront, List.getElem?_drop, Nat.add_sub_cancel' hk]

/-- Settles O23: byte `k` lies inside the written range, below it or above it. -/
theorem writesChangeTheirBytesOnly : Obligations.WritesChangeTheirBytesOnly := by
  intro m a n v k hlen hfits _
  have ham : a ≤ m.length := by omega
  split
  case isTrue hin =>
    obtain ⟨hak, hkn⟩ := hin
    exact memWrite_getElem?_inside a n v k m ham hak hkn
  case isFalse hout =>
    rcases Nat.lt_or_ge k a with hbelow | habove
    · exact memWrite_getElem?_below a n v k m ham hbelow
    · exact memWrite_getElem?_above a n v k m ham (by omega)

/-! ## The UDP payload length -/

/-- Settles O28: with `n ≥ 8` the clamp is `min (udpLength - 8) (n - 8)`, and each case says which side is the smaller. -/
theorem udpClampCases : Obligations.UdpClampCases := by
  intro len n hn
  rw [udpPayloadLength_eq len n hn]
  refine ⟨fun _ hle => ?_, fun _ hlt => ?_, fun hshort => ?_⟩
  · exact Nat.min_eq_left hle
  · exact Nat.min_eq_right hlt.le
  · rw [Nat.sub_eq_zero_of_le hshort.le, Nat.zero_min]

end Sys2Proof
end

section
/-! PROOFS of the statements about what instructions, model faults, host interactions and steps do to the state: O38, O40, O54 and
O55. -/

namespace Sys2Proof.Machine

/-! ## What each arm answers -/

/-- The disposition and the output items of an ingress instruction under this identity. The egress format has neither. -/
def ingressResult (idMac : Mac) (idIp : Ip) : Instr → Option (Disposition × List OutItem)
  | .ethRunt _ => some (.malformedEth, dropOutputs Config.reportMalformed .malformedEth)
  | .arpShort _ _ _ => some (.malformedArpShort, dropOutputs Config.reportMalformed .malformedArpShort)
  | .arpBadfmt _ _ _ _ _ _ _ => some (.malformedArpFormat, dropOutputs Config.reportMalformed .malformedArpFormat)
  | .arpReqMatch _ _ sha spa tha tpa _ => some (requestResult idMac idIp (requestMessage sha spa tha tpa))
  | .arpReqOther _ _ sha spa tha tpa _ => some (requestResult idMac idIp (requestMessage sha spa tha tpa))
  | .arpNonreq _ _ _ _ _ _ _ _ => some (.arpNotRequest, [])
  | .ipv4Short _ _ _ => some (.malformedIpv4Short, dropOutputs Config.reportMalformed .malformedIpv4Short)
  | .ipv4Badihl _ _ _ _ _ => some (.malformedIpv4Ihl, dropOutputs Config.reportMalformed .malformedIpv4Ihl)
  | .ipv4Trunc _ _ _ _ _ => some (.malformedIpv4Trunc, dropOutputs Config.reportMalformed .malformedIpv4Trunc)
  | .ipv4Nonudp _ _ _ _ => some (.ipv4NotUdp, [])
  | .udpShort _ _ _ _ => some (.malformedUdpShort, dropOutputs Config.reportMalformed .malformedUdpShort)
  | .ipv4Udp _ _ ip udp data =>
      some (.udpReported, [.ev (.udpPacketObserved ip.srcIp udp.srcPort ip.dstIp udp.dstPort (udpPayload udp data))])
  | .ethOther _ _ _ _ => some (.ethertypeUnsupported, [])
  | .txArpReply _ _ _ _ => none

theorem exec_eq_accept {i : Instr} {s : State} {result : Disposition × List OutItem}
    (h : ingressResult s.idMac s.idIp i = some result) : exec i s = accept result.1 result.2 s := by
  cases i <;> cases h <;> rfl

/-- An instruction has a result on the ingress port, and is a reply on the egress port. -/
theorem ingressResult_or_reply (idMac : Mac) (idIp : Ip) (i : Instr) :
    (i.port = .ingress ∧ ∃ result, ingressResult idMac idIp i = some result)
      ∨ (i.port = .egress ∧ ∃ tm ti sm si, i = .txArpReply tm ti sm si) := by
  cases i with
  | txArpReply tm ti sm si => exact .inr ⟨rfl, tm, ti, sm, si, rfl⟩
  | _ => exact .inl ⟨rfl, _, rfl⟩

theorem exec_txArpReply (tm : Mac) (ti : Ip) (sm : Mac) (si : Ip) (s : State) :
    exec (.txArpReply tm ti sm si) s = emitItem (.tx (encodeArpReply tm ti sm si)) s := rfl

/-! ## Frames -/

/-- An item whose emit step is enabled is the head of `PENDING`. -/
theorem pending_of_emitEnabled {s : State} {item : OutItem} (h : s.emitEnabled item = true) :
    s.pending = item :: s.pending.tail := by
  obtain ⟨_, _, hhead, _⟩ := (emitEnabled_iff s item).mp h
  exact List.eq_cons_of_mem_head? hhead

/-- Settles O38: an ingress instruction is an accept step, the egress one an emit step, and each changes what its update says. -/
theorem instructionsLeaveTheRestAlone : Obligations.InstructionsLeaveTheRestAlone := by
  intro i s t h
  rcases ingressResult_or_reply s.idMac s.idIp i with ⟨hport, result, hresult⟩ | ⟨hport, tm, ti, sm, si, rfl⟩
  · rw [exec_eq_accept hresult] at h
    rcases accept_next h with ⟨_, rfl⟩ | ⟨_, rfl⟩ <;> simp [hport]
  · rw [exec_txArpReply] at h
    rcases emitItem_next h with ⟨henabled, rfl⟩ | ⟨_, rfl⟩
    · have hhead := pending_of_emitEnabled henabled
      exact ⟨rfl, rfl, rfl, rfl, rfl, rfl, rfl, rfl, rfl, rfl, nofun, fun _ => ⟨rfl, rfl, .inr ⟨_, hhead, rfl⟩⟩⟩
    · simp [hport]

/-! ## Model faults -/

theorem modelFault_of_illegal {s : State} (h : s.runState = runIllegal) : s.modelFault = some .illegalRunState := by
  rw [State.modelFault, if_pos h]

theorem modelFault_of_overflow {s : State} (hrun : s.runState ≠ runIllegal) (h : 3 < s.pending.length) :
    s.modelFault = some .pendingOverflow := by
  rw [State.modelFault, if_neg hrun, if_pos h]

theorem modelFault_of_reserved {s : State} (hrun : s.runState ≠ runIllegal) (hlen : s.pending.length ≤ 3)
    (h : s.pending.any itemReserved = true) : s.modelFault = some .reservedDisposition := by
  rw [State.modelFault, if_neg hrun, if_neg (Nat.not_lt.mpr hlen), if_pos h]

theorem exec_of_modelFault {s : State} {f : Fault} (h : s.modelFault = some f) (i : Instr) : exec i s = .fault f := by
  rcases ingressResult_or_reply s.idMac s.idIp i with ⟨_, result, hresult⟩ | ⟨_, tm, ti, sm, si, rfl⟩
  · rw [exec_eq_accept hresult]
    exact guarded_of_some h _
  · exact guarded_of_some h _

theorem not_runOver_of_modelFault {s : State} {f : Fault} (h : s.modelFault = some f) : ¬ RunOver s := by
  rintro ⟨hnone, _⟩
  rw [h] at hnone
  cases hnone

/-- A model fault stops the step, every instruction, and keeps the run from being over (R281). -/
theorem stopped_of_modelFault {s : State} {f : Fault} (h : s.modelFault = some f) (i : Instr) :
    step s = .fault f ∧ exec i s = .fault f ∧ ¬ RunOver s :=
  ⟨guarded_of_some h _, exec_of_modelFault h i, not_runOver_of_modelFault h⟩

theorem itemReserved_decodeError {code : BitVec 4} (h : code = 6 ∨ code = 7 ∨ code = 15) :
    itemReserved (.ev (.decodeError code)) = true := by
  simpa [itemReserved, reservedCode, or_assoc] using h

/-- Settles O40: each of the three conditions is the model fault of its name. -/
theorem modelFaultsStopEverything : Obligations.ModelFaultsStopEverything := by
  intro s i
  refine ⟨fun hrun => ?_, fun hrun hlen => ?_, fun hrun hlen code hmem hcode => ?_⟩
  · exact stopped_of_modelFault (modelFault_of_illegal hrun) i
  · exact stopped_of_modelFault (modelFault_of_overflow hrun hlen) i
  · have hany : s.pending.any itemReserved = true := List.any_eq_true.mpr ⟨_, hmem, itemReserved_decodeError hcode⟩
    exact stopped_of_modelFault (modelFault_of_reserved hrun hlen hany) i

/-! ## The host's interactions -/

theorem step_of_host {s : State} {a : HostAction} {rest : List HostAction} (hfault : s.modelFault = none)
    (hhost : s.host = a :: rest) (hwait : a ≠ .wait) : step s = .next (hostStep a { s with host := rest }) := by
  rw [step, guarded_of_none hfault, hhost]
  cases a with
  | wait => exact absurd rfl hwait
  | offer | withdraw | egressReady | eventReady | stop | reset | config => rfl

theorem step_of_nfbState {s s' : State} (hfault : s.modelFault = none) (hturn : s.nfbState = some s') :
    step s = nfbStep s' := by
  rw [step, guarded_of_none hfault]
  unfold State.nfbState at hturn
  split at hturn
  case h_1 hhost | h_2 hhost =>
    cases hturn
    rw [hhost]
  all_goals cases hturn

/-- Settles O55: the step is the host's action, whose update names the one level it sets. -/
theorem hostInteractionsChangeTheirPortOnly : Obligations.HostInteractionsChangeTheirPortOnly := by
  intro s rest hfault
  refine ⟨fun F hhost => ?_, fun k hhost => ?_, fun b hhost => ?_, fun b hhost => ?_, fun b hhost => ?_,
    fun mac ip hhost => ?_⟩ <;> exact step_of_host hfault hhost nofun

/-! ## Steps -/

theorem exists_host_of_nfbState {s s' : State} (h : s.nfbState = some s') : ∃ rest, s' = { s with host := rest } := by
  unfold State.nfbState at h
  split at h <;> cases h
  · exact ⟨s.host, rfl⟩
  · exact ⟨_, rfl⟩

theorem host_of_nfbState_none {s : State} (h : s.nfbState = none) : ∃ a rest, s.host = a :: rest ∧ a ≠ .wait := by
  cases hhost : s.host with
  | nil =>
    rw [State.nfbState, hhost] at h
    cases h
  | cons a rest =>
    refine ⟨a, rest, rfl, ?_⟩
    rintro rfl
    rw [State.nfbState, hhost] at h
    cases h

/-- Everything a step can do: the host's next action, or a step of the NFB. -/
theorem step_next {s t : State} (h : step s = .next t) :
    (∃ a rest, s.host = a :: rest ∧ a ≠ .wait ∧ t = hostStep a { s with host := rest })
      ∨ ∃ s', s.nfbState = some s' ∧ nfbStep s' = .next t := by
  have hfault : s.modelFault = none := (guarded_next h).1
  cases hturn : s.nfbState with
  | some s' => exact .inr ⟨s', rfl, step_of_nfbState hfault hturn ▸ h⟩
  | none =>
    obtain ⟨a, rest, hhost, hwait⟩ := host_of_nfbState_none hturn
    rw [step_of_host hfault hhost hwait] at h
    cases h
    exact .inl ⟨a, rest, hhost, hwait, rfl⟩

/-- What a step of the NFB can make of a state: hold, see STOP, let the head of `PENDING` leave, or accept the oldest frame. -/
inductive NfbMove (s : State) : State → Prop
  /-- No step is enabled (R289, R323). -/
  | hold : NfbMove s s
  /-- The stop step (R316). -/
  | stop (henabled : s.stopEnabled = true) : NfbMove s s.seeStop
  /-- The emit step (R214). -/
  | emit (item : OutItem) (henabled : s.emitEnabled item = true) : NfbMove s (s.pop item)
  /-- The accept step (R210). -/
  | accept (frame : List Byte) (rest : List (List Byte)) (i : Instr) (result : Disposition × List OutItem)
      (henabled : CanAccept s) (hframe : s.ingress = frame :: rest) (hdecode : decode s.idIp .ingress frame = .ok i)
      (hresult : ingressResult s.idMac s.idIp i = some result) : NfbMove s (s.load result.1 result.2)

theorem nfbMove_of_emitItem {s t : State} {item : OutItem} (h : emitItem item s = .next t) : NfbMove s t := by
  rcases emitItem_next h with ⟨henabled, rfl⟩ | ⟨_, rfl⟩
  · exact .emit item henabled
  · exact .hold

/-- Running the offered frame's instruction accepts the frame, or does nothing. -/
theorem nfbMove_of_exec {s t : State} {frame : List Byte} {rest : List (List Byte)} {i : Instr}
    (hframe : s.ingress = frame :: rest) (hdecode : decode s.idIp .ingress frame = .ok i) (h : exec i s = .next t) :
    NfbMove s t := by
  rcases ingressResult_or_reply s.idMac s.idIp i with ⟨_, result, hresult⟩ | ⟨_, tm, ti, sm, si, rfl⟩
  · rw [exec_eq_accept hresult] at h
    rcases accept_next h with ⟨henabled, rfl⟩ | ⟨_, rfl⟩
    · exact .accept frame rest i result henabled hframe hdecode hresult
    · exact .hold
  · exact nfbMove_of_emitItem h

theorem nfbMove_of_emitTurn {s u t : State} (h : runTurn s (emitTurn u) = .next t) : t = s ∨ NfbMove u t := by
  unfold emitTurn at h
  split at h
  case h_1 => cases h; exact .inl rfl
  case h_2 => exact .inr (nfbMove_of_emitItem h)
  case h_3 frame rest hpending =>
    split at h
    · rcases exec_next h with ⟨⟨_, _, hempty, _⟩, _⟩ | ⟨item, henabled, rfl⟩ | rfl
      · rw [hpending] at hempty
        cases hempty
      · exact .inr (.emit item henabled)
      · exact .inr .hold
    · exact .inr (nfbMove_of_emitItem h)

theorem nfbMove_of_acceptTurn {s u t : State} (h : runTurn s (acceptTurn u) = .next t) : t = s ∨ NfbMove u t := by
  unfold acceptTurn at h
  split at h
  case h_1 => cases h; exact .inl rfl
  case h_2 frame rest hframe =>
    split at h
    case h_1 i hdecode => exact .inr (nfbMove_of_exec hframe hdecode h)
    case h_2 => cases h

theorem nfbMove_of_workTurn {s u t : State} (h : runTurn s (workTurn u) = .next t) : t = s ∨ NfbMove u t := by
  unfold workTurn at h
  split_ifs at h
  · exact nfbMove_of_emitTurn h
  · exact nfbMove_of_acceptTurn h
  · cases h
    exact .inl rfl

/-- Everything a step of the NFB can do: one move, after the draw of a free choice or without one. -/
theorem nfbStep_next {s t : State} (h : nfbStep s = .next t) : NfbMove s t ∨ NfbMove s.draw t := by
  have work : ∀ u, runTurn s (workTurn u) = .next t → NfbMove s t ∨ NfbMove u t := by
    intro u hu
    rcases nfbMove_of_workTurn hu with rfl | hmove
    · exact .inl .hold
    · exact .inr hmove
  unfold nfbStep nfbTurn at h
  split_ifs at h with hstop
  · cases h
    exact .inr (.stop hstop)
  · exact work _ h
  · cases h
    exact .inl (.stop hstop)
  · exact (work s h).elim .inl .inl

theorem NfbMove.identity {s t : State} (h : NfbMove s t) : t.idMac = s.idMac ∧ t.idIp = s.idIp := by
  cases h <;> exact ⟨rfl, rfl⟩

theorem hostStep_identity (a : HostAction) (s : State) :
    ((hostStep a s).idMac = s.idMac ∧ (hostStep a s).idIp = s.idIp)
      ∨ (a = .reset false ∧ s.resetLevel = true ∧ (hostStep a s).idMac = s.cfgIdMac ∧ (hostStep a s).idIp = s.cfgIdIp) := by
  cases a with
  | reset level =>
    cases level <;> cases hr : s.resetLevel <;> simp [hostStep, State.driveReset, hr]
  | _ => exact .inl ⟨rfl, rfl⟩

/-- Settles O54: of the host's actions only the release of RESET sets the identity, and no move of the NFB does. -/
theorem identityChangesOnlyAtReset : Obligations.IdentityChangesOnlyAtReset := by
  intro s t h
  rcases step_next h with ⟨a, rest, hhost, _, rfl⟩ | ⟨s', hturn, hstep⟩
  · rcases hostStep_identity a { s with host := rest } with hkeep | ⟨rfl, hreset, hids⟩
    · exact .inl hkeep
    · exact .inr ⟨hreset, ⟨rest, hhost⟩, hids⟩
  · obtain ⟨rest, rfl⟩ := exists_host_of_nfbState hturn
    rcases nfbStep_next hstep with hmove | hmove <;> exact .inl hmove.identity

end Sys2Proof.Machine
end

section
/-! PROOFS that every step keeps the invariant of a run: O56. The instruction of an offered frame is well-formed, so its output items
are a list `PENDING` can be; then each thing a step can do keeps the invariant. -/

namespace Sys2Proof.Machine

/-! ## The instruction of a frame is well-formed -/

@[simp] theorem ipv4FieldsOf_ihl (m : Ifb) : (ipv4FieldsOf m).ihl = ihlOf (fieldU8 m 14) := rfl
@[simp] theorem ipv4FieldsOf_protocol (m : Ifb) : (ipv4FieldsOf m).protocol = fieldU8 m 23 := rfl

theorem ipv4FieldsOf_wf {m : Ifb} (hihl : ihlMalformed (ihlOf (fieldU8 m 14)) = false)
    (hlen : 14 + headerLength (ihlOf (fieldU8 m 14)) ≤ m.length) : (ipv4FieldsOf m).wf = true := by
  have hge := headerLength_ge hihl
  simp only [Ipv4Fields.wf, ipv4FieldsOf, hihl, Bool.not_false, Bool.true_and, beq_iff_eq, List.length_take, List.length_drop]
  omega

theorem arpInstrOf_wf (idIp : Ip) {m : Ifb} (hmax : Ifb.wf m) : (arpInstrOf idIp m).wf idIp = true := by
  unfold Ifb.wf at hmax
  unfold arpInstrOf
  split_ifs with hshort hformat hrequest htarget
  · simp only [Instr.wf, List.length_drop, decide_eq_true_eq]
    omega
  · rw [arpFormatAt] at hformat
    simp only [Instr.wf, hformat, List.length_drop, Bool.true_and, Bool.and_eq_true, decide_eq_true_eq]
    omega
  · simp only [Instr.wf, hrequest, List.length_drop, Bool.true_and, decide_eq_true_eq]
    omega
  · simp only [Instr.wf, htarget, List.length_drop, Bool.true_and, decide_eq_true_eq]
    omega
  · simp only [Instr.wf, bne, htarget, Bool.not_false, List.length_drop, Bool.true_and, decide_eq_true_eq]
    omega

theorem ipv4InstrOf_wf (idIp : Ip) {m : Ifb} (hmax : Ifb.wf m) : (ipv4InstrOf m).wf idIp = true := by
  unfold Ifb.wf at hmax
  unfold ipv4InstrOf
  dsimp only
  split_ifs with hshort hihl htrunc hother hudpShort
  · simp only [Instr.wf, List.length_drop, decide_eq_true_eq]
    omega
  · simp only [Instr.wf, hihl, List.length_drop, Bool.true_and, Bool.and_eq_true, decide_eq_true_eq]
    omega
  all_goals
    rw [Bool.not_eq_true] at hihl
  · simp only [Instr.wf, hihl, List.length_drop, Bool.not_false, Bool.true_and, Bool.and_eq_true, decide_eq_true_eq]
    omega
  all_goals
    have hip := ipv4FieldsOf_wf hihl (Nat.le_of_not_lt htrunc)
  · simp only [Instr.wf, hip, hother, ipv4FieldsOf_ihl, ipv4FieldsOf_protocol, List.length_drop, Bool.true_and, decide_eq_true_eq]
    omega
  all_goals
    have hudp : isUdp (fieldU8 m 23) = true := by simpa using hother
    simp only [Instr.wf, hip, hudp, ipv4FieldsOf_ihl, ipv4FieldsOf_protocol, List.length_drop, Bool.true_and,
      decide_eq_true_eq]
    omega

theorem instrOf_wf (idIp : Ip) {m : Ifb} (hmax : Ifb.wf m) : (instrOf idIp m).wf idIp = true := by
  unfold instrOf
  split_ifs with hrunt harp hipv4
  · simpa [Instr.wf] using hrunt
  · exact arpInstrOf_wf idIp hmax
  · exact ipv4InstrOf_wf idIp hmax
  · have hlen : m.length - 14 + 14 ≤ Config.maxFrame := by unfold Ifb.wf at hmax; omega
    simp [Instr.wf, bne, harp, hipv4, hlen]

/-- What the ingress port decodes is well-formed under the identity it was decoded with. -/
theorem wf_of_decode_ingress {idIp : Ip} {frame : List Byte} {i : Instr} (h : decode idIp .ingress frame = .ok i) :
    i.wf idIp = true := by
  rw [decode_ingress_eq] at h
  cases h
  exact instrOf_wf idIp (loadIfb_wf frame)

/-! ## The output items of one frame -/

/-- The codes a reported drop can carry (R256, R272). -/
theorem reportedCode_bounds {code : Disposition} (hmalformed : dispositionCategory code = .malformed)
    (hpastEth : code ≠ .malformedEth) : 9 ≤ (dispositionCode code).toNat ∧ (dispositionCode code).toNat ≤ 14 := by
  cases code with
  | arpReplied | arpRequestNoMatch | arpNotRequest | udpReported | ipv4NotUdp | ethertypeUnsupported => cases hmalformed
  | malformedEth => exact absurd rfl hpastEth
  | malformedArpShort | malformedArpFormat | malformedIpv4Short | malformedIpv4Ihl | malformedIpv4Trunc
  | malformedUdpShort => decide

theorem pendingShape_dropOutputs (idMac : Mac) (idIp : Ip) {code : Disposition}
    (hmalformed : dispositionCategory code = .malformed) :
    PendingShape idMac idIp (dropOutputs Config.reportMalformed code) := by
  unfold dropOutputs
  split_ifs with hreported
  · obtain ⟨hpastEth, hreport⟩ : code ≠ .malformedEth ∧ Config.reportMalformed = true := by simpa using hreported
    exact ⟨hreport, reportedCode_bounds hmalformed hpastEth⟩
  · trivial

theorem pendingShape_requestResult (idMac : Mac) (idIp : Ip) (sha : Mac) (spa : Ip) (tha : Mac) (tpa : Ip) :
    PendingShape idMac idIp (requestResult idMac idIp (requestMessage sha spa tha tpa)).2 := by
  by_cases htarget : tpa = idIp
  · subst htarget
    simp [requestResult, handle, requestMessage, isRequest, PendingShape, arpFormatSupported]
  · simp [requestResult, handle, requestMessage, isRequest, PendingShape, arpFormatSupported, htarget]

theorem udpPayload_length_le (udp : UdpFields) (data : List Byte) : (udpPayload udp data).length ≤ data.length :=
  List.length_take_le' _ _

/-- A well-formed IPv4 and UDP frame has at least 42 bytes of headers, so at most 2006 of payload. -/
theorem data_length_of_wf {idIp : Ip} {dst src : Mac} {ip : Ipv4Fields} {udp : UdpFields} {data : List Byte}
    (h : (Instr.ipv4Udp dst src ip udp data).wf idIp = true) : data.length ≤ 2006 := by
  simp only [Instr.wf, Ipv4Fields.wf, Bool.and_eq_true, Bool.not_eq_true'] at h
  obtain ⟨⟨⟨hihl, _⟩, _⟩, hfits⟩ := h
  have hge := headerLength_ge hihl
  have hlen : 14 + headerLength ip.ihl + 8 + data.length ≤ 2048 := of_decide_eq_true hfits
  omega

/-- A well-formed instruction's output items are a list `PENDING` can be. -/
theorem pendingShape_ingressResult {idMac : Mac} {idIp : Ip} {i : Instr} {result : Disposition × List OutItem}
    (hwf : i.wf idIp = true) (hresult : ingressResult idMac idIp i = some result) : PendingShape idMac idIp result.2 := by
  cases i with
  | ipv4Udp dst src ip udp data =>
    cases hresult
    exact (udpPayload_length_le udp data).trans (data_length_of_wf hwf)
  | arpReqMatch dst src sha spa tha tpa trailer =>
    cases hresult
    exact pendingShape_requestResult idMac idIp sha spa tha tpa
  | arpReqOther dst src sha spa tha tpa trailer =>
    cases hresult
    exact pendingShape_requestResult idMac idIp sha spa tha tpa
  | arpNonreq | ipv4Nonudp | ethOther =>
    cases hresult
    trivial
  | txArpReply => cases hresult
  | ethRunt | arpShort | arpBadfmt | ipv4Short | ipv4Badihl | ipv4Trunc | udpShort =>
    cases hresult
    dsimp only
    exact pendingShape_dropOutputs idMac idIp rfl

/-- No frame's output items are an `ArpReplySent` alone: its reply comes before it (R253). -/
theorem ingressResult_ne_sent {idMac : Mac} {idIp : Ip} {i : Instr} {result : Disposition × List OutItem}
    (hresult : ingressResult idMac idIp i = some result) (intent : ArpReplyIntent) :
    result.2 ≠ [.ev (.arpReplySent intent)] := by
  have hdrop : ∀ code, dropOutputs Config.reportMalformed code ≠ [.ev (.arpReplySent intent)] := by
    intro code
    unfold dropOutputs
    split <;> simp
  have hrequest : ∀ arp, (requestResult idMac idIp arp).2 ≠ [.ev (.arpReplySent intent)] := by
    intro arp
    unfold requestResult
    split <;> simp
  cases i with
  | ipv4Udp | arpNonreq | ipv4Nonudp | ethOther =>
    cases hresult
    simp
  | arpReqMatch | arpReqOther =>
    cases hresult
    exact hrequest _
  | txArpReply => cases hresult
  | ethRunt | arpShort | arpBadfmt | ipv4Short | ipv4Badihl | ipv4Trunc | udpShort =>
    cases hresult
    dsimp only
    exact hdrop _

/-! ## The head of `PENDING` -/

section
variable {idMac : Mac} {idIp : Ip} {item : OutItem} {rest : List OutItem}

/-- Either the head is a last event, or it is an answered request's event or frame with what follows it. -/
theorem pendingShape_cons (h : PendingShape idMac idIp (item :: rest)) :
    (rest = [] ∧ ∃ e, item = .ev e)
      ∨ ∃ intent : ArpReplyIntent, intent.replySenderMac = idMac ∧ intent.replySenderIp = idIp
        ∧ ((item = .tx (encodeIntent intent) ∧ rest = [.ev (.arpReplySent intent)])
          ∨ ∃ arp, item = .ev (.arpRequestObserved arp)
            ∧ rest = [.tx (encodeIntent intent), .ev (.arpReplySent intent)]) := by
  unfold PendingShape at h
  split at h
  case h_1 heq => cases heq
  case h_3 arp frame intent heq =>
    obtain ⟨_, _, _, hintent, hframe⟩ := h
    cases heq
    exact .inr ⟨intent, by rw [hintent], by rw [hintent], .inr ⟨arp, rfl, by rw [hframe]⟩⟩
  case h_4 frame intent heq =>
    obtain ⟨hmac, hip, hframe⟩ := h
    cases heq
    exact .inr ⟨intent, hmac, hip, .inl ⟨by rw [hframe], rfl⟩⟩
  case h_8 => exact h.elim
  case h_2 heq | h_5 heq | h_6 heq | h_7 heq =>
    cases heq
    exact .inl ⟨rfl, _, rfl⟩

theorem pendingShape_tail (h : PendingShape idMac idIp (item :: rest)) : PendingShape idMac idIp rest := by
  rcases pendingShape_cons h with ⟨rfl, _⟩ | ⟨intent, hmac, hip, ⟨_, rfl⟩ | ⟨_, _, rfl⟩⟩
  · trivial
  · exact ⟨hmac, hip⟩
  · exact ⟨hmac, hip, rfl⟩

theorem reply_of_pendingShape {frame : List Byte} (h : PendingShape idMac idIp (.tx frame :: rest)) :
    ∃ intent, frame = encodeIntent intent := by
  rcases pendingShape_cons h with ⟨_, _, hitem⟩ | ⟨intent, _, _, ⟨hitem, _⟩ | ⟨_, hitem, _⟩⟩
  · cases hitem
  · exact ⟨intent, OutItem.tx.inj hitem⟩
  · cases hitem

theorem last_of_pendingShape_sent {intent : ArpReplyIntent} (h : PendingShape idMac idIp (.ev (.arpReplySent intent) :: rest)) :
    rest = [] := by
  rcases pendingShape_cons h with ⟨hrest, _⟩ | ⟨_, _, _, ⟨hitem, _⟩ | ⟨_, hitem, _⟩⟩
  · exact hrest
  · cases hitem
  · cases hitem

theorem reply_before_sent {intent : ArpReplyIntent} (h : PendingShape idMac idIp [item, .ev (.arpReplySent intent)]) :
    item = .tx (encodeIntent intent) := by
  rcases pendingShape_cons h with ⟨hrest, _⟩ | ⟨_, _, _, ⟨rfl, hrest⟩ | ⟨_, _, hrest⟩⟩ <;> cases hrest
  rfl

end

/-! ## What has left -/

theorem sentAfterReply_concat {observed : List OutItem} {item : OutItem} (h : SentAfterReply observed)
    (hitem : ∀ intent, item = .ev (.arpReplySent intent) → observed.getLast? = some (.tx (encodeIntent intent))) :
    SentAfterReply (observed ++ [item]) := by
  intro before intent after heq
  rcases List.eq_nil_or_concat after with rfl | ⟨front, last, rfl⟩
  · obtain ⟨rfl, hlast⟩ := List.append_inj' heq rfl
    exact hitem intent (List.head_eq_of_cons_eq hlast)
  · refine h before intent front (List.append_inj_left' (t₁ := [item]) (t₂ := [last]) ?_ rfl)
    simpa using heq

theorem onlyReplies_concat {observed : List OutItem} {item : OutItem} (h : OnlyReplies observed)
    (hitem : ∀ frame, item = .tx frame → ∃ intent, frame = encodeIntent intent) : OnlyReplies (observed ++ [item]) := by
  intro frame hmem
  rcases List.mem_append.mp hmem with hold | hnew
  · exact h frame hold
  · exact hitem frame (List.mem_singleton.mp hnew).symm

/-! ## Every move keeps the invariant -/

theorem State.Inv.draw {s : State} (h : s.Inv) : s.draw.Inv := { h with }

theorem State.Inv.setHost {s : State} (h : s.Inv) (rest : List HostAction) : { s with host := rest }.Inv := { h with }

/-- A state that is RUNNING with nothing pending meets the invariant when what has left does. -/
theorem State.Inv.of_idle {s t : State} (h : s.Inv) (hrun : t.runState = runRunning) (hpending : t.pending = [])
    (hobserved : t.observed = s.observed) : t.Inv where
  runLegal := hrun ▸ by decide
  stoppedEmpty _ := hpending
  stoppingBusy hstopping := absurd (hrun.symm.trans hstopping) (by decide)
  resetEmpty _ := ⟨hpending, hrun⟩
  pendingShape := hpending ▸ trivial
  sentPending _ hsent := nomatch hpending.symm.trans hsent
  sentAfterReply := hobserved ▸ h.sentAfterReply
  onlyReplies := hobserved ▸ h.onlyReplies

theorem State.Inv.driveReset {s : State} (h : s.Inv) (level : Bool) : (s.driveReset level).Inv := by
  unfold State.driveReset
  split_ifs
  · exact h
  · exact h.of_idle rfl rfl rfl
  · exact h.of_idle rfl rfl rfl
  · exact h

theorem State.Inv.hostStep {s : State} (h : s.Inv) (a : HostAction) : (hostStep a s).Inv := by
  cases a with
  | reset level => exact h.driveReset level
  | offer | withdraw | egressReady | eventReady | stop | config | wait => exact { h with }

/-- The stop step ends the run where nothing is pending, and starts the draining otherwise (R316). -/
theorem seeStop_runState_cases (s : State) :
    (s.pending = [] ∧ s.seeStop.runState = runStopped) ∨ (s.pending ≠ [] ∧ s.seeStop.runState = runStopping) := by
  by_cases hempty : s.pending = []
  · exact .inl ⟨hempty, by simp [hempty]⟩
  · exact .inr ⟨hempty, by simp [hempty]⟩

theorem State.Inv.seeStop {s : State} (h : s.Inv) (henabled : s.stopEnabled = true) : s.seeStop.Inv := by
  obtain ⟨⟨hreset, _⟩, _⟩ : (s.resetLevel = false ∧ s.stopLevel = true) ∧ s.runState = runRunning := by
    simpa [State.stopEnabled] using henabled
  have hnoReset : s.resetLevel ≠ true := by rw [hreset]; decide
  rcases seeStop_runState_cases s with ⟨hempty, hstate⟩ | ⟨hbusy, hstate⟩
  · exact { h with
      runLegal := hstate ▸ by decide
      stoppedEmpty := fun _ => hempty
      stoppingBusy := fun hstopping => absurd (hstate.symm.trans hstopping) (by decide)
      resetEmpty := fun hasserted => absurd hasserted hnoReset }
  · exact { h with
      runLegal := hstate ▸ by decide
      stoppedEmpty := fun hstopped => absurd (hstate.symm.trans hstopped) (by decide)
      stoppingBusy := fun _ => hbusy
      resetEmpty := fun hasserted => absurd hasserted hnoReset }

theorem State.Inv.load {s : State} (h : s.Inv) (henabled : CanAccept s) (disp : Disposition) {outs : List OutItem}
    (hshape : PendingShape s.idMac s.idIp outs) (hsent : ∀ intent, outs ≠ [.ev (.arpReplySent intent)]) :
    (s.load disp outs).Inv := by
  obtain ⟨hreset, hrun, _, _⟩ := henabled
  exact { h with
    stoppedEmpty := fun hstopped => absurd (hrun.symm.trans hstopped) (by decide)
    stoppingBusy := fun hstopping => absurd (hrun.symm.trans hstopping) (by decide)
    resetEmpty := fun hasserted => absurd (hreset.symm.trans hasserted) (by decide)
    pendingShape := hshape
    sentPending := fun intent hpending => absurd hpending (hsent intent) }

/-- The emit step that empties `PENDING` in STOPPING ends in STOPPED, and no other changes the run state (R317). -/
theorem pop_runState_cases (s : State) (item : OutItem) :
    ((s.runState = runStopping ∧ s.pending.tail = []) ∧ (s.pop item).runState = runStopped)
      ∨ (¬ (s.runState = runStopping ∧ s.pending.tail = []) ∧ (s.pop item).runState = s.runState) := by
  by_cases hlast : s.runState = runStopping ∧ s.pending.tail = []
  · exact .inl ⟨hlast, by simp [hlast]⟩
  · exact .inr ⟨hlast, by rw [State.pop_runState, if_neg (by simpa using hlast)]⟩

theorem State.Inv.pop {s : State} {item : OutItem} (h : s.Inv) (henabled : s.emitEnabled item = true) : (s.pop item).Inv := by
  obtain ⟨hreset, hrun, _, _⟩ := (emitEnabled_iff s item).mp henabled
  have hpending := pending_of_emitEnabled henabled
  have hshape : PendingShape s.idMac s.idIp (item :: s.pending.tail) := hpending ▸ h.pendingShape
  have hnotStopped : s.runState ≠ runStopped := by rcases hrun with hrun | hrun <;> rw [hrun] <;> decide
  constructor
  case runLegal =>
    rcases pop_runState_cases s item with ⟨_, hstate⟩ | ⟨_, hstate⟩ <;> rw [hstate]
    · decide
    · exact h.runLegal
  case stoppedEmpty =>
    intro hstopped
    rcases pop_runState_cases s item with ⟨⟨_, hempty⟩, _⟩ | ⟨_, hstate⟩
    · exact hempty
    · exact absurd (hstate.symm.trans hstopped) hnotStopped
  case stoppingBusy =>
    intro hstopping hempty
    rcases pop_runState_cases s item with ⟨_, hstate⟩ | ⟨hnotLast, hstate⟩
    · exact absurd (hstate.symm.trans hstopping) (by decide)
    · exact hnotLast ⟨hstate.symm.trans hstopping, hempty⟩
  case resetEmpty => exact fun hasserted => absurd (hreset.symm.trans hasserted) (by decide)
  case pendingShape => exact pendingShape_tail hshape
  case sentPending =>
    intro intent hsent
    rw [State.pop_pending] at hsent
    have hreply : item = .tx (encodeIntent intent) := reply_before_sent (hsent ▸ hshape)
    rw [State.pop_observed, List.getLast?_concat, hreply]
  case sentAfterReply =>
    refine sentAfterReply_concat h.sentAfterReply ?_
    rintro intent rfl
    exact h.sentPending intent (hpending.trans (congrArg _ (last_of_pendingShape_sent hshape)))
  case onlyReplies =>
    refine onlyReplies_concat h.onlyReplies ?_
    rintro frame rfl
    exact reply_of_pendingShape hshape

theorem State.Inv.nfbMove {s t : State} (h : s.Inv) (hmove : NfbMove s t) : t.Inv := by
  cases hmove with
  | hold => exact h
  | stop henabled => exact h.seeStop henabled
  | emit item henabled => exact h.pop henabled
  | accept frame rest i result henabled _ hdecode hresult =>
    exact h.load henabled _ (pendingShape_ingressResult (wf_of_decode_ingress hdecode) hresult) (ingressResult_ne_sent hresult)

/-- Settles O56: the host's actions and the moves of the NFB each keep the invariant. -/
theorem everyStepKeepsTheInvariant : Obligations.EveryStepKeepsTheInvariant := by
  intro s t h hstep
  rcases step_next hstep with ⟨a, rest, _, _, rfl⟩ | ⟨s', hturn, hnfb⟩
  · exact (h.setHost rest).hostStep a
  · obtain ⟨rest, rfl⟩ := exists_host_of_nfbState hturn
    rcases nfbStep_next hnfb with hmove | hmove
    · exact (h.setHost rest).nfbMove hmove
    · exact (h.setHost rest).draw.nfbMove hmove

end Sys2Proof.Machine
end

section
/-! PROOFS that an instruction decoded from a frame stands for the bytes it was read from: O17. On the ingress port every field is
written back over the bytes it was read from; on the egress port the format check gives the bytes no field holds. -/

namespace Sys2Proof

/-! ## A field written back in front of the bytes behind it -/

section
variable {m : Ifb} {a b : Nat}

/-- A slice and the bytes from its end on are the bytes from its start on. -/
theorem take_drop_append_drop (n : Nat) (hb : a + n = b) : (m.drop a).take n ++ m.drop b = m.drop a := by
  rw [← hb, ← List.drop_drop, List.take_append_drop]

theorem macBytes_append_drop (hb : a + 6 = b) (hin : b ≤ m.length) : macBytes (fieldMac m a) ++ m.drop b = m.drop a := by
  rw [macBytes_field m a (hb ▸ hin), take_drop_append_drop 6 hb]

theorem ipBytes_append_drop (hb : a + 4 = b) (hin : b ≤ m.length) : ipBytes (fieldIp m a) ++ m.drop b = m.drop a := by
  rw [ipBytes_field m a (hb ▸ hin), take_drop_append_drop 4 hb]

theorem u16Bytes_append_drop (hb : a + 2 = b) (hin : b ≤ m.length) : u16Bytes (fieldU16 m a) ++ m.drop b = m.drop a := by
  rw [u16Bytes_field m a (hb ▸ hin), take_drop_append_drop 2 hb]

theorem byte_cons_drop (hb : a + 1 = b) (hin : b ≤ m.length) : fieldU8 m a :: m.drop b = m.drop a := by
  rw [← List.singleton_append, byte_field m a (hb ▸ hin), take_drop_append_drop 1 hb]

end

/-! ## The ingress port -/

/-- The Ethernet header of a frame, and the rest of it (R90). -/
theorem ethBytes_append_drop {m : Ifb} (h : 14 ≤ m.length) :
    ethBytes (fieldMac m 0) (fieldMac m 6) (fieldU16 m 12) ++ m.drop 14 = m := by
  simp (disch := omega) only [ethBytes, List.append_assoc, u16Bytes_append_drop, macBytes_append_drop, List.drop_zero]

/-- The ARP body of a frame in the supported format, and the trailer (R91). -/
theorem arpBytes_append_drop {m : Ifb} (hformat : arpFormatAt m 14 = true) (h : 42 ≤ m.length) :
    arpBytes (fieldU16 m 20) (fieldMac m 22) (fieldIp m 28) (fieldMac m 32) (fieldIp m 38) ++ m.drop 42 = m.drop 14 := by
  simp only [arpFormatAt, arpFormatSupported, Bool.and_eq_true, beq_iff_eq] at hformat
  obtain ⟨⟨⟨hhwType, hprotoType⟩, hhwLen⟩, hprotoLen⟩ := hformat
  have hconsts : [0x00#8, 0x01#8, 0x08#8, 0x00#8, 0x06#8, 0x04#8]
      = u16Bytes (fieldU16 m 14) ++ (u16Bytes (fieldU16 m 16) ++ [fieldU8 m 18, fieldU8 m 19]) := by
    rw [hhwType, hprotoType, hhwLen, hprotoLen]
    rfl
  simp (disch := omega) only [arpBytes, hconsts, List.append_assoc, List.cons_append, List.nil_append, ipBytes_append_drop,
    macBytes_append_drop, u16Bytes_append_drop, byte_cons_drop]

theorem versionIhlByte_of_byte (b : U8) : versionIhlByte (versionOf b) (ihlOf b) = b := by
  unfold versionIhlByte versionOf ihlOf
  decide +revert

/-- The IPv4 header of a frame, with its options, and the payload (R92). -/
theorem ipv4Bytes_append_drop {m : Ifb} (hihl : ihlMalformed (ihlOf (fieldU8 m 14)) = false)
    (h : 14 + headerLength (ihlOf (fieldU8 m 14)) ≤ m.length) :
    ipv4Bytes (ipv4FieldsOf m) ++ m.drop (14 + headerLength (ihlOf (fieldU8 m 14))) = m.drop 14 := by
  have hge := headerLength_ge hihl
  have hmiddle : beBytes 8 (BitVec.ofNat 64 (beValue ((m.drop 15).take 8))).toNat = (m.drop 15).take 8 :=
    beBytes_ofNat_beValue _ 8 (by simp; omega)
  simp (disch := omega) only [ipv4Bytes, ipv4FieldsOf, versionIhlByte_of_byte, hmiddle, List.append_assoc, List.cons_append,
    List.nil_append, take_drop_append_drop, ipBytes_append_drop, u16Bytes_append_drop, byte_cons_drop]

/-- The UDP header of a frame, and the bytes behind it (R94). -/
theorem udpBytes_append_drop {m : Ifb} {u : Nat} (h : u + 8 ≤ m.length) :
    udpBytes (udpFieldsAt m u) ++ m.drop (u + 8) = m.drop u := by
  simp (disch := omega) only [udpBytes, udpFieldsAt, List.append_assoc, u16Bytes_append_drop]

theorem encode_arpInstrOf (idIp : Ip) {m : Ifb} (h : 14 ≤ m.length) (harp : fieldU16 m 12 = etherArp) :
    encode (arpInstrOf idIp m) = m := by
  have heth := ethBytes_append_drop h
  rw [harp] at heth
  unfold arpInstrOf
  split_ifs with hshort hformat hrequest htarget
  · exact heth
  · have hfields : u16Bytes (fieldU16 m 14) ++ (u16Bytes (fieldU16 m 16) ++ fieldU8 m 18 :: fieldU8 m 19 :: m.drop 20)
        = m.drop 14 := by
      simp (disch := omega) only [u16Bytes_append_drop, byte_cons_drop]
    simpa [encode, hfields] using heth
  all_goals
    have hbody := arpBytes_append_drop (m := m) (by simpa using hformat) (by omega)
  · rwa [encode, List.append_assoc, hbody]
  all_goals
    have hopcode : fieldU16 m 20 = 1#16 := by simpa [isRequest] using hrequest
    rw [hopcode] at hbody
    rwa [encode, List.append_assoc, hbody]

theorem encode_ipv4InstrOf {m : Ifb} (h : 14 ≤ m.length) (hipv4 : fieldU16 m 12 = etherIpv4) :
    encode (ipv4InstrOf m) = m := by
  have heth := ethBytes_append_drop h
  rw [hipv4] at heth
  unfold ipv4InstrOf
  dsimp only
  split_ifs with hshort hihl htrunc hother hudpShort
  · exact heth
  · rwa [encode, versionIhlByte_of_byte, byte_cons_drop rfl (by omega)]
  · rwa [encode, versionIhlByte_of_byte, byte_cons_drop rfl (by omega)]
  all_goals
    have hheader := ipv4Bytes_append_drop (by simpa using hihl) (Nat.le_of_not_lt htrunc)
  · rwa [encode, List.append_assoc, hheader]
  · rwa [encode, List.append_assoc, hheader]
  · rwa [encode, List.append_assoc, List.append_assoc, udpBytes_append_drop (by omega), hheader]

/-- The instruction of a frame encodes to the whole frame. -/
theorem encode_instrOf (idIp : Ip) (m : Ifb) : encode (instrOf idIp m) = m := by
  unfold instrOf
  split_ifs with hrunt harp hipv4
  · rfl
  · exact encode_arpInstrOf idIp (by omega) (by simpa using harp)
  · exact encode_ipv4InstrOf (by omega) (by simpa using hipv4)
  · exact ethBytes_append_drop (by omega)

theorem arpInstrOf_port (idIp : Ip) (m : Ifb) : (arpInstrOf idIp m).port = .ingress := by
  unfold arpInstrOf
  split_ifs <;> rfl

theorem ipv4InstrOf_port (m : Ifb) : (ipv4InstrOf m).port = .ingress := by
  unfold ipv4InstrOf
  dsimp only
  split_ifs <;> rfl

theorem instrOf_port (idIp : Ip) (m : Ifb) : (instrOf idIp m).port = .ingress := by
  unfold instrOf
  split_ifs
  · rfl
  · exact arpInstrOf_port idIp m
  · exact ipv4InstrOf_port m
  · rfl

/-! ## The egress port -/

theorem exists_ok_of_bind {ε α β : Type} {x : Except ε α} {f : α → Except ε β} {r : β} (h : (x >>= f) = .ok r) :
    ∃ a, x = .ok a ∧ f a = .ok r := by
  cases x with
  | error e => cases h
  | ok a => exact ⟨a, rfl, h⟩

/-- The check of the reply format (R95). -/
def replyFormat (m : List Byte) : Bool :=
  (m.drop 12).take 10 == [0x08#8, 0x06#8, 0x00#8, 0x01#8, 0x08#8, 0x00#8, 0x06#8, 0x04#8, 0x00#8, 0x02#8]
    && fieldMac m 22 == fieldMac m 6 && fieldMac m 32 == fieldMac m 0 && m.drop 42 == List.replicate 18 0#8

theorem decodeReply_eq {m : List Byte} (h : 42 ≤ m.length) :
    decodeReply m = if replyFormat m then .ok (.txArpReply (fieldMac m 0) (fieldIp m 38) (fieldMac m 6) (fieldIp m 28))
      else .error .notArpReply := by
  unfold decodeReply replyFormat
  simp (disch := omega) only [readMac_ok, readIp_ok, bytesAt_ok, bytesFrom_ok, ok_bind, pure_eq_ok]

theorem length_of_decodeReply {m : List Byte} {i : Instr} (h : decodeReply m = .ok i) : 42 ≤ m.length := by
  iterate 6 obtain ⟨_, _, h⟩ := exists_ok_of_bind h
  obtain ⟨ti, hti, h⟩ := exists_ok_of_bind h
  by_contra hshort
  rw [readIp, memRead_violation _ _ _ _ (by omega)] at hti
  cases hti

/-- What the egress port decodes is the reply of these bytes. -/
theorem encode_of_decodeReply {m : List Byte} {i : Instr} (h : decodeReply m = .ok i) :
    (∃ tm ti sm si, i = .txArpReply tm ti sm si) ∧ encode i = m := by
  have hlen := length_of_decodeReply h
  rw [decodeReply_eq hlen] at h
  split_ifs at h with hformat
  cases h
  refine ⟨⟨_, _, _, _, rfl⟩, ?_⟩
  simp only [replyFormat, Bool.and_eq_true, beq_iff_eq] at hformat
  obtain ⟨⟨⟨hfixed, hsender⟩, htarget⟩, hpad⟩ := hformat
  have hconsts : u16Bytes etherArp ++ ([0x00#8, 0x01#8, 0x08#8, 0x00#8, 0x06#8, 0x04#8] ++ u16Bytes 2#16)
      = (m.drop 12).take 10 := hfixed ▸ by decide
  calc encode (.txArpReply (fieldMac m 0) (fieldIp m 38) (fieldMac m 6) (fieldIp m 28))
      = macBytes (fieldMac m 0) ++ (macBytes (fieldMac m 6) ++ ((m.drop 12).take 10 ++ (macBytes (fieldMac m 22)
          ++ (ipBytes (fieldIp m 28) ++ (macBytes (fieldMac m 32) ++ (ipBytes (fieldIp m 38) ++ m.drop 42)))))) := by
        simp only [encode, ethBytes, arpBytes, ← hconsts, hsender, htarget, hpad, List.append_assoc]
    _ = m := by
        simp (disch := omega) only [macBytes_append_drop, ipBytes_append_drop, take_drop_append_drop, List.drop_zero]

/-- Settles O17: on each port the decoder's instruction, given by `instrOf` or read by `decodeReply`, encodes to its bytes. -/
theorem encodingADecodedFrameGivesItBack : Obligations.EncodingADecodedFrameGivesItBack := by
  intro idIp i F
  refine ⟨fun hdecode => ?_, fun hdecode => ?_⟩
  · have hwf := Machine.wf_of_decode_ingress hdecode
    rw [decode_ingress_eq] at hdecode
    cases hdecode
    exact ⟨encode_instrOf idIp (loadIfb F), instrOf_port idIp (loadIfb F), hwf⟩
  · obtain ⟨⟨tm, ti, sm, si, rfl⟩, hencode⟩ := encode_of_decodeReply hdecode
    exact ⟨hencode, rfl, rfl⟩

end Sys2Proof
end

section
/-! PROOFS that no step faults or refuses: O58. The invariant excludes every model fault, the decoder never reads out of bounds, and no
instruction is refused. -/

namespace Sys2Proof.Machine

/-! ## The invariant excludes the model faults -/

/-- One frame's items are at most three (R42, R213). -/
theorem length_le_of_pendingShape {idMac : Mac} {idIp : Ip} {items : List OutItem} (h : PendingShape idMac idIp items) :
    items.length ≤ 3 := by
  cases items with
  | nil => exact Nat.zero_le 3
  | cons item rest =>
    rcases pendingShape_cons h with ⟨rfl, _⟩ | ⟨_, _, _, ⟨_, rfl⟩ | ⟨_, _, rfl⟩⟩ <;> simp

theorem reservedCode_of_reported {code : BitVec 4} (hlow : 9 ≤ code.toNat) (hhigh : code.toNat ≤ 14) :
    reservedCode code = false := by
  decide +revert

/-- One frame's items carry no reserved code (R272). -/
theorem any_itemReserved_of_pendingShape {idMac : Mac} {idIp : Ip} {items : List OutItem} (h : PendingShape idMac idIp items) :
    items.any itemReserved = false := by
  unfold PendingShape at h
  split at h
  case h_7 code =>
    obtain ⟨_, hlow, hhigh⟩ := h
    simpa [itemReserved] using reservedCode_of_reported hlow hhigh
  case h_8 => exact h.elim
  case h_1 | h_2 | h_3 | h_4 | h_5 | h_6 => rfl

theorem State.Inv.modelFault {s : State} (h : s.Inv) : s.modelFault = none :=
  (modelFault_eq_none_iff s).mpr
    ⟨h.runLegal, length_le_of_pendingShape h.pendingShape, any_itemReserved_of_pendingShape h.pendingShape⟩

/-! ## Every operation answers a next state where no model fault shows -/

section
variable {s : State} (h : s.modelFault = none)
include h

theorem accept_progress (disp : Disposition) (outs : List OutItem) : ∃ t, accept disp outs s = .next t := by
  rw [accept, guarded_of_none h]
  split_ifs <;> exact ⟨_, rfl⟩

theorem emitItem_progress (item : OutItem) : ∃ t, emitItem item s = .next t := by
  rw [emitItem, guarded_of_none h]
  split_ifs <;> exact ⟨_, rfl⟩

theorem exec_progress (i : Instr) : ∃ t, exec i s = .next t := by
  rcases ingressResult_or_reply s.idMac s.idIp i with ⟨_, result, hresult⟩ | ⟨_, tm, ti, sm, si, rfl⟩
  · rw [exec_eq_accept hresult]
    exact accept_progress h _ _
  · exact emitItem_progress h _

theorem emitTurn_progress (u : State) : ∃ t, runTurn u (emitTurn s) = .next t := by
  unfold emitTurn
  split
  · exact ⟨u, rfl⟩
  · exact emitItem_progress h _
  · split
    · exact exec_progress h _
    · exact emitItem_progress h _

theorem acceptTurn_progress (u : State) : ∃ t, runTurn u (acceptTurn s) = .next t := by
  unfold acceptTurn
  split
  · exact ⟨u, rfl⟩
  · rw [decode_ingress_eq]
    exact exec_progress h _

theorem workTurn_progress (u : State) : ∃ t, runTurn u (workTurn s) = .next t := by
  unfold workTurn
  split_ifs
  · exact emitTurn_progress h u
  · exact acceptTurn_progress h u
  · exact ⟨u, rfl⟩

theorem nfbStep_progress : ∃ t, nfbStep s = .next t := by
  have hdraw : s.draw.modelFault = none := h
  unfold nfbStep nfbTurn
  split_ifs
  · exact ⟨_, rfl⟩
  · exact workTurn_progress hdraw s
  · exact ⟨_, rfl⟩
  · exact workTurn_progress h s

theorem step_progress : ∃ t, step s = .next t := by
  cases hturn : s.nfbState with
  | none =>
    obtain ⟨a, rest, hhost, hwait⟩ := host_of_nfbState_none hturn
    exact ⟨_, step_of_host h hhost hwait⟩
  | some s' =>
    rw [step_of_nfbState h hturn]
    obtain ⟨rest, rfl⟩ := exists_host_of_nfbState hturn
    exact nfbStep_progress h

end

/-- Settles O58: the invariant excludes the model faults, and without one every step answers a next state. -/
theorem noStepFaultsOrRefuses : Obligations.NoStepFaultsOrRefuses :=
  fun _ h => step_progress h.modelFault

end Sys2Proof.Machine
end

section
/-! PROOFS of what the proof of O59 needs of one step: the reply's bytes are the writes of its encoder, the arm of a frame's
instruction does what ProcessFrame says, and the NFB's turn is then an emit step or an accept step. -/

/-! ## The reply's bytes -/

namespace Sys2Proof

/-- A write at the end of what has been written appends its bytes. -/
theorem memWrite_append_zeros {a n k : Nat} (v : Nat) {written : List Byte} (hlen : written.length = a) :
    memWrite a n v (written ++ List.replicate k 0#8) = (written ++ beBytes n v) ++ List.replicate (k - n) 0#8 := by
  subst hlen
  simp [memWrite]

/-- The writes of the encoder lay the reply out as the format says (R95, R171). -/
theorem encodeArpReply_eq_encode (tm : Mac) (ti : Ip) (sm : Mac) (si : Ip) :
    encodeArpReply tm ti sm si = encode (.txArpReply tm ti sm si) := by
  have hzero : efbZero = [] ++ List.replicate 60 0#8 := rfl
  unfold encodeArpReply
  rw [hzero]
  simp (disch := simp) only [memWrite_append_zeros]
  simp only [encode, ethBytes, arpBytes, macBytes, ipBytes, List.append_assoc]
  rfl

end Sys2Proof

namespace Sys2Proof.Machine

/-! ## The arms do what ProcessFrame says -/

theorem etherIpv4_ne_etherArp : etherIpv4 ≠ etherArp := by decide

theorem processFrame_of_drop {report : Bool} {idMac : Mac} {idIp : Ip} {m : Ifb} {code : Disposition}
    (h : dispatchPath idMac idIp m = .error (.drop code)) :
    processFrame report idMac idIp m = .ok (code, dropOutputs report code) := by
  rw [processFrame, h]

theorem processFrame_of_ok {report : Bool} {idMac : Mac} {idIp : Ip} {m : Ifb} {result : Disposition × List OutItem}
    (h : dispatchPath idMac idIp m = .ok result) : processFrame report idMac idIp m = .ok result := by
  rw [processFrame, h]

/-- A supported message with opcode 1 is the request message of its addresses. -/
theorem arpAt_eq_requestMessage {m : Ifb} (hformat : arpFormatAt m 14 = true) (hopcode : fieldU16 m 20 = 1#16) :
    arpAt m 14 = requestMessage (fieldMac m 22) (fieldIp m 28) (fieldMac m 32) (fieldIp m 38) := by
  simp only [arpFormatAt, arpFormatSupported, Bool.and_eq_true, beq_iff_eq] at hformat
  obtain ⟨⟨⟨hhwType, hprotoType⟩, hhwLen⟩, hprotoLen⟩ := hformat
  simp only [arpAt, requestMessage, hhwType, hprotoType, hhwLen, hprotoLen, hopcode]

/-- The payload `decodeUdp` takes from the frame is the one the arm takes from the instruction's data (R155). -/
theorem udpPayload_udpFieldsAt {m : Ifb} {u n : Nat} (hn : 8 ≤ n) (hlen : m.length = u + n) :
    udpPayload (udpFieldsAt m u) (m.drop (u + 8)) = (m.drop (u + 8)).take (udpPayloadLength (fieldU16 m (u + 4)) n) := by
  have hdata : (m.drop (u + 8)).length + 8 = n := by rw [List.length_drop]; omega
  rw [udpPayload, hdata]
  rfl

section
variable {idMac : Mac} {idIp : Ip} {m : Ifb} {code : Disposition}

/-! ### What ProcessFrame's path gives, by the decode that decides -/

theorem dispatchPath_runt (h : m.length < 14) : dispatchPath idMac idIp m = .error (.drop .malformedEth) := by
  rw [dispatchPath, decodeEthernet_runt m h]
  rfl

theorem dispatchPath_arp_drop (h : 14 ≤ m.length) (harp : fieldU16 m 12 = etherArp)
    (hdrop : decodeArp m 14 (m.length - 14) = .error (.drop code)) : dispatchPath idMac idIp m = .error (.drop code) := by
  simp [dispatchPath, decodeEthernet_ok m h, harp, hdrop]

theorem dispatchPath_arp_nonreq {arp : ArpMessage} (h : 14 ≤ m.length) (harp : fieldU16 m 12 = etherArp)
    (hdecode : decodeArp m 14 (m.length - 14) = .ok arp) (hopcode : arp.opcode ≠ 1#16) :
    dispatchPath idMac idIp m = .ok (.arpNotRequest, []) := by
  simp [dispatchPath, decodeEthernet_ok m h, harp, hdecode, hopcode]

theorem dispatchPath_arp_request {arp : ArpMessage} (h : 14 ≤ m.length) (harp : fieldU16 m 12 = etherArp)
    (hdecode : decodeArp m 14 (m.length - 14) = .ok arp) (hopcode : arp.opcode = 1#16) :
    dispatchPath idMac idIp m = .ok (requestResult idMac idIp arp) := by
  simp only [dispatchPath, decodeEthernet_ok m h, harp, hdecode, hopcode, ok_bind, requestResult]
  cases handle idMac idIp arp <;> rfl

theorem dispatchPath_ipv4_drop (h : 14 ≤ m.length) (hipv4 : fieldU16 m 12 = etherIpv4)
    (hdrop : decodeIpv4 m 14 (m.length - 14) = .error (.drop code)) : dispatchPath idMac idIp m = .error (.drop code) := by
  simp [dispatchPath, decodeEthernet_ok m h, hipv4, etherIpv4_ne_etherArp, hdrop]

theorem dispatchPath_ipv4_nonudp {hdr : Ipv4Header} (h : 14 ≤ m.length) (hipv4 : fieldU16 m 12 = etherIpv4)
    (hdecode : decodeIpv4 m 14 (m.length - 14) = .ok hdr) (hother : hdr.protocol ≠ 17#8) :
    dispatchPath idMac idIp m = .ok (.ipv4NotUdp, []) := by
  simp [dispatchPath, decodeEthernet_ok m h, hipv4, etherIpv4_ne_etherArp, hdecode, hother]

theorem dispatchPath_udp_drop {hdr : Ipv4Header} (h : 14 ≤ m.length) (hipv4 : fieldU16 m 12 = etherIpv4)
    (hdecode : decodeIpv4 m 14 (m.length - 14) = .ok hdr) (hudp : hdr.protocol = 17#8)
    (hdrop : decodeUdp m (14 + hdr.hl) (m.length - 14 - hdr.hl) = .error (.drop code)) :
    dispatchPath idMac idIp m = .error (.drop code) := by
  simp [dispatchPath, decodeEthernet_ok m h, hipv4, etherIpv4_ne_etherArp, hdecode, hudp, hdrop]

theorem dispatchPath_udp {hdr : Ipv4Header} {udp : UdpDatagram} (h : 14 ≤ m.length) (hipv4 : fieldU16 m 12 = etherIpv4)
    (hdecode : decodeIpv4 m 14 (m.length - 14) = .ok hdr) (hudp : hdr.protocol = 17#8)
    (hdecodeUdp : decodeUdp m (14 + hdr.hl) (m.length - 14 - hdr.hl) = .ok udp) :
    dispatchPath idMac idIp m
      = .ok (.udpReported, [.ev (.udpPacketObserved hdr.srcIp udp.srcPort hdr.dstIp udp.dstPort udp.payload)]) := by
  simp [dispatchPath, decodeEthernet_ok m h, hipv4, etherIpv4_ne_etherArp, hdecode, hudp, hdecodeUdp]

theorem dispatchPath_other (h : 14 ≤ m.length) (harp : fieldU16 m 12 ≠ etherArp) (hipv4 : fieldU16 m 12 ≠ etherIpv4) :
    dispatchPath idMac idIp m = .ok (.ethertypeUnsupported, []) := by
  simp [dispatchPath, decodeEthernet_ok m h, harp, hipv4]

/-! ### The arm of a frame's instruction gives ProcessFrame's result (R228) -/

theorem processFrame_arpInstrOf (h : 14 ≤ m.length) (harp : fieldU16 m 12 = etherArp) :
    ∃ result, ingressResult idMac idIp (arpInstrOf idIp m) = some result
      ∧ processFrame Config.reportMalformed idMac idIp m = .ok result := by
  unfold arpInstrOf
  split_ifs with hshort hformat hrequest htarget
  · exact ⟨_, rfl, processFrame_of_drop (dispatchPath_arp_drop h harp (decodeArp_short _ _ _ (by omega)))⟩
  all_goals
    have hdecode := decodeArp_long m 14 (m.length - 14) (by omega) (by omega)
  · rw [if_neg (by simpa using hformat)] at hdecode
    exact ⟨_, rfl, processFrame_of_drop (dispatchPath_arp_drop h harp hdecode)⟩
  all_goals
    have hsupported : arpFormatAt m 14 = true := by simpa using hformat
    rw [if_pos hsupported] at hdecode
  · have hopcode : fieldU16 m 20 ≠ 1#16 := by simpa [isRequest] using hrequest
    exact ⟨_, rfl, processFrame_of_ok (dispatchPath_arp_nonreq h harp hdecode hopcode)⟩
  all_goals
    have hopcode : fieldU16 m 20 = 1#16 := by simpa [isRequest] using hrequest
    have hpath := dispatchPath_arp_request (idMac := idMac) (idIp := idIp) h harp hdecode hopcode
    rw [arpAt_eq_requestMessage hsupported hopcode] at hpath
    exact ⟨_, rfl, processFrame_of_ok hpath⟩

theorem processFrame_ipv4InstrOf (h : 14 ≤ m.length) (hipv4 : fieldU16 m 12 = etherIpv4) :
    ∃ result, ingressResult idMac idIp (ipv4InstrOf m) = some result
      ∧ processFrame Config.reportMalformed idMac idIp m = .ok result := by
  unfold ipv4InstrOf
  dsimp only
  split_ifs with hshort hihl htrunc hother hudpShort
  · exact ⟨_, rfl, processFrame_of_drop (dispatchPath_ipv4_drop h hipv4 (decodeIpv4_short _ _ _ (by omega)))⟩
  all_goals
    have hdecode := decodeIpv4_long m 14 (m.length - 14) (by omega) (by omega)
  · rw [if_pos hihl] at hdecode
    exact ⟨_, rfl, processFrame_of_drop (dispatchPath_ipv4_drop h hipv4 hdecode)⟩
  all_goals
    rw [if_neg hihl] at hdecode
  · rw [if_pos (by omega)] at hdecode
    exact ⟨_, rfl, processFrame_of_drop (dispatchPath_ipv4_drop h hipv4 hdecode)⟩
  all_goals
    rw [if_neg (by omega)] at hdecode
  · have hprotocol : fieldU8 m 23 ≠ 17#8 := by simpa [isUdp] using hother
    exact ⟨_, rfl, processFrame_of_ok (dispatchPath_ipv4_nonudp h hipv4 hdecode hprotocol)⟩
  all_goals
    have hudp : fieldU8 m 23 = 17#8 := by simpa [isUdp] using hother
  · have hdrop := decodeUdp_short m (14 + headerLength (ihlOf (fieldU8 m 14)))
      (m.length - 14 - headerLength (ihlOf (fieldU8 m 14))) (by omega)
    exact ⟨_, rfl, processFrame_of_drop (dispatchPath_udp_drop h hipv4 hdecode hudp hdrop)⟩
  · have hdecodeUdp := decodeUdp_long m (14 + headerLength (ihlOf (fieldU8 m 14)))
      (m.length - 14 - headerLength (ihlOf (fieldU8 m 14))) (by omega) (by omega)
    rw [← udpPayload_udpFieldsAt (by omega) (by omega)] at hdecodeUdp
    exact ⟨_, rfl, processFrame_of_ok (dispatchPath_udp h hipv4 hdecode hudp hdecodeUdp)⟩

/-- The arm of a frame's instruction and ProcessFrame give the same result. -/
theorem processFrame_instrOf (idMac : Mac) (idIp : Ip) (m : Ifb) :
    ∃ result, ingressResult idMac idIp (instrOf idIp m) = some result
      ∧ processFrame Config.reportMalformed idMac idIp m = .ok result := by
  unfold instrOf
  split_ifs with hrunt harp hipv4
  · exact ⟨_, rfl, processFrame_of_drop (dispatchPath_runt hrunt)⟩
  · exact processFrame_arpInstrOf (by omega) (by simpa using harp)
  · exact processFrame_ipv4InstrOf (by omega) (by simpa using hipv4)
  · exact ⟨_, rfl, processFrame_of_ok (dispatchPath_other (by omega) (by simpa using harp) (by simpa using hipv4))⟩

end

/-! ## One step of the NFB, by the item or the frame it takes -/

/-- A head item leaves by the emit step, also where a reply is decoded and run as an instruction (R214). -/
theorem runTurn_emitTurn {s u : State} {item : OutItem} {rest : List OutItem} (hpending : s.pending = item :: rest) :
    runTurn u (emitTurn s) = emitItem item s := by
  unfold emitTurn
  rw [hpending]
  cases item with
  | ev e => rfl
  | tx frame =>
    dsimp only
    split
    case h_1 i hdecode =>
      obtain ⟨⟨tm, ti, sm, si, rfl⟩, hencode⟩ := encode_of_decodeReply hdecode
      rw [← encodeArpReply_eq_encode] at hencode
      rw [← hencode]
      rfl
    case h_2 => rfl

theorem nfbStep_of_not_stopEnabled {s : State} (h : s.stopEnabled = false) : nfbStep s = runTurn s (workTurn s) := by
  rw [nfbStep, nfbTurn, if_neg (by simp [h])]

theorem nfbStep_of_emitEnabled {s : State} {item : OutItem} (hfault : s.modelFault = none) (hstop : s.stopEnabled = false)
    (henabled : s.emitEnabled item = true) : nfbStep s = .next (s.pop item) := by
  have hpending := pending_of_emitEnabled henabled
  have hready : s.headReady = true := by
    rw [State.headReady, hpending]
    exact henabled
  rw [nfbStep_of_not_stopEnabled hstop, workTurn, if_pos hready, runTurn_emitTurn hpending, emitItem, guarded_of_none hfault,
    if_pos henabled]

/-- The accept step loads the outputs of ProcessFrame for the oldest frame (R210). -/
theorem nfbStep_of_canAccept {s : State} {frame : List Byte} {rest : List (List Byte)} (hready : CanAccept s)
    (hstop : s.stopEnabled = false) (hframe : s.ingress = frame :: rest) :
    ∃ result, processFrame Config.reportMalformed s.idMac s.idIp (loadIfb frame) = .ok result
      ∧ nfbStep s = .next (s.load result.1 result.2) := by
  obtain ⟨result, hresult, hprocess⟩ := processFrame_instrOf s.idMac s.idIp (loadIfb frame)
  refine ⟨result, hprocess, ?_⟩
  have hidle : s.headReady = false := by
    obtain ⟨_, _, hempty, _⟩ := hready
    rw [State.headReady, hempty]
  have hturn : acceptTurn s = .run (instrOf s.idIp (loadIfb frame)) s := by
    rw [acceptTurn, hframe]
    dsimp only
    rw [decode_ingress_eq]
  rw [nfbStep_of_not_stopEnabled hstop, workTurn, if_neg (by simp [hidle]), if_pos ((acceptEnabled_iff s).mpr hready), hturn]
  exact (exec_eq_accept hresult).trans (accept_of_canAccept hready _ _)

end Sys2Proof.Machine
end

section
/-! PROOFS that every offered frame is served in order: O59. With a host that lets everything through, what is pending drains, one item
in each step, and then the oldest frame is accepted. -/

namespace Sys2Proof.Machine

/-! ## Runs -/

theorem run_succ {n : Nat} {s t : State} (h : step s = .next t) : core.run (n + 1) s = core.run n t := by
  have hstep : core.step s = .next t := h
  simp only [Host.Core.run, hstep]

theorem exists_step_of_run_succ {n : Nat} {s t : State} (h : core.run (n + 1) s = .next t) :
    ∃ s', step s = .next s' ∧ core.run n s' = .next t := by
  cases hstep : core.step s with
  | next s' => exact ⟨s', hstep, run_succ hstep ▸ h⟩
  | fault | refused =>
    simp only [Host.Core.run, hstep] at h
    cases h

theorem run_add {k n : Nat} {s t : State} (h : core.run k s = .next t) : core.run (k + n) s = core.run n t := by
  induction k generalizing s with
  | zero =>
    cases h
    rw [Nat.zero_add]
  | succ k ih =>
    obtain ⟨s', hstep, hrun⟩ := exists_step_of_run_succ h
    rw [Nat.succ_add, run_succ hstep, ih hrun]

/-! ## A host that lets everything through -/

/-- The host has no more to do, asserts neither RESET nor STOP, and is ready on both ports; the NFB is RUNNING. -/
structure State.Serving (s : State) : Prop where
  inv : s.Inv
  host : s.host = []
  noReset : s.resetLevel = false
  noStop : s.stopLevel = false
  running : s.runState = runRunning
  egress : s.egressReady = true
  event : s.eventReady = true

namespace State.Serving

variable {s : State} (h : s.Serving)
include h

theorem step_eq : step s = nfbStep s :=
  step_of_nfbState h.inv.modelFault (by rw [State.nfbState, h.host])

theorem not_stopEnabled : s.stopEnabled = false := by
  simp [State.stopEnabled, h.noStop]

theorem portReady (item : OutItem) : s.portReady item = true := by
  cases item with
  | tx => exact h.egress
  | ev => exact h.event

/-- The head item leaves, and the host still lets everything through. -/
theorem emit {item : OutItem} {rest : List OutItem} (hpending : s.pending = item :: rest) :
    step s = .next (s.pop item) ∧ (s.pop item).Serving := by
  have henabled : s.emitEnabled item = true :=
    (emitEnabled_iff s item).mpr ⟨h.noReset, .inl h.running, by rw [hpending]; rfl, h.portReady item⟩
  have hrunning : (s.pop item).runState = runRunning := by simp [h.running, runRunning, runStopping]
  exact ⟨h.step_eq.trans (nfbStep_of_emitEnabled h.inv.modelFault h.not_stopEnabled henabled),
    h.inv.pop henabled, h.host, h.noReset, h.noStop, hrunning, h.egress, h.event⟩

/-- With nothing pending the oldest frame is accepted, and the host still lets everything through. -/
theorem accept {frame : List Byte} {rest : List (List Byte)} (hempty : s.pending = []) (hframe : s.ingress = frame :: rest) :
    ∃ result, processFrame Config.reportMalformed s.idMac s.idIp (loadIfb frame) = .ok result
      ∧ step s = .next (s.load result.1 result.2) ∧ (s.load result.1 result.2).Serving := by
  have hready : CanAccept s := ⟨h.noReset, h.running, hempty, by rw [hframe]; exact List.cons_ne_nil _ _⟩
  obtain ⟨result, hprocess, hnfb⟩ := nfbStep_of_canAccept hready h.not_stopEnabled hframe
  have hstep := h.step_eq.trans hnfb
  exact ⟨result, hprocess, hstep,
    everyStepKeepsTheInvariant _ _ h.inv hstep, h.host, h.noReset, h.noStop, h.running, h.egress, h.event⟩

end State.Serving

/-- The state when everything pending has left. -/
def State.drained (s : State) : State := { s with pending := [], observed := s.observed ++ s.pending }

theorem drained_of_empty {s : State} (h : s.pending = []) : s.drained = s := by
  cases s
  simp_all [State.drained]

theorem drained_pop {s : State} {item : OutItem} {rest : List OutItem} (hrunning : s.runState = runRunning)
    (hpending : s.pending = item :: rest) : (s.pop item).drained = s.drained := by
  simp [State.drained, State.pop, hpending, hrunning, runRunning, runStopping]

/-- Every pending item leaves, one in each step. -/
theorem State.Serving.drain {s : State} (h : s.Serving) :
    core.run s.pending.length s = .next s.drained ∧ s.drained.Serving := by
  induction hpending : s.pending generalizing s with
  | nil =>
    rw [drained_of_empty hpending]
    exact ⟨rfl, h⟩
  | cons item rest ih =>
    obtain ⟨hstep, hserving⟩ := h.emit hpending
    rw [← drained_pop h.running hpending, List.length_cons, run_succ hstep]
    exact ih hserving (by rw [State.pop_pending, hpending]; rfl)

/-- The state when these results of the offered frames have been served, after everything pending. -/
def State.served (results : List (Disposition × List OutItem)) (s : State) : State :=
  { s with
    ingress := []
    pending := []
    observed := s.observed ++ s.pending ++ (results.map Prod.snd).flatten
    trace := s.trace ++ results.map Prod.fst }

theorem served_nil {s : State} (h : s.ingress = []) : s.served [] = s.drained := by
  cases s
  simp_all [State.served, State.drained]

theorem served_cons (result : Disposition × List OutItem) (results : List (Disposition × List OutItem)) (s : State) :
    (s.drained.load result.1 result.2).served results = s.served (result :: results) := by
  simp [State.served, State.drained, State.load]

/-- Every offered frame is served, by induction on the line: what is pending drains, then the oldest frame is accepted. -/
theorem State.Serving.serve {s : State} (h : s.Serving) :
    ∃ (results : List (Disposition × List OutItem)) (n : Nat),
      List.Forall₂ (fun F r => processFrame Config.reportMalformed s.idMac s.idIp (loadIfb F) = .ok r) s.ingress results
      ∧ n ≤ s.pending.length + 4 * s.ingress.length ∧ core.run n s = .next (s.served results) := by
  obtain ⟨hdrain, hdrained⟩ := h.drain
  induction hingress : s.ingress generalizing s with
  | nil =>
    exact ⟨[], s.pending.length, .nil, by simp, by rw [hdrain, served_nil hingress]⟩
  | cons frame rest ih =>
    obtain ⟨result, hprocess, hstep, hloaded⟩ := hdrained.accept rfl hingress
    obtain ⟨hdrain', hdrained'⟩ := hloaded.drain
    obtain ⟨results, n, hresults, hn, hrun⟩ := ih hloaded hdrain' hdrained' (by simp [State.drained, hingress])
    have houts : result.2.length ≤ 3 := length_le_of_pendingShape hloaded.inv.pendingShape
    refine ⟨result :: results, s.pending.length + (n + 1), .cons hprocess hresults, ?_, ?_⟩
    · simp only [State.load_pending, List.length_cons] at hn ⊢
      omega
    · rw [run_add hdrain, run_succ hstep, hrun, served_cons]

/-- Settles O59: such a host's state is one of `State.Serving`. -/
theorem everyOfferedFrameIsServedInOrder : Obligations.EveryOfferedFrameIsServedInOrder :=
  fun _ hinv hhost hreset hstop hrunning hegress hevent =>
    State.Serving.serve ⟨hinv, hhost, hreset, hstop, hrunning, hegress, hevent⟩

end Sys2Proof.Machine
end

section
/-! PROOFS that every frame is decoded to the class of the table: O18. The fields of the window `W` are those of the frame, so each
row's mask and condition are the checks of the decoder. -/

namespace Sys2Proof

/-! ## Fields of a bit vector -/

theorem bitVec_append_inj_iff {a b : Nat} {x p : BitVec a} {y q : BitVec b} : x ++ y = p ++ q ↔ x = p ∧ y = q := by
  refine ⟨fun h => ⟨?_, ?_⟩, fun ⟨hx, hy⟩ => by rw [hx, hy]⟩
  · simpa only [BitVec.extractLsb'_append_eq_left] using congrArg (BitVec.extractLsb' b a) h
  · simpa only [BitVec.extractLsb'_append_eq_right] using congrArg (BitVec.extractLsb' 0 b) h

/-- A field under a mask, compared part by part. -/
theorem extractLsb'_and_append_eq_append_iff {w s a b : Nat} {x : BitVec w} {c p : BitVec a} {d q : BitVec b} :
    x.extractLsb' s (a + b) &&& (c ++ d) = p ++ q ↔ x.extractLsb' (s + b) a &&& c = p ∧ x.extractLsb' s b &&& d = q := by
  rw [← BitVec.extractLsb'_append_extractLsb'_eq_extractLsb' rfl, BitVec.and_append, bitVec_append_inj_iff]

/-- A field compared part by part. -/
theorem extractLsb'_eq_append_iff {w s a b : Nat} {x : BitVec w} {p : BitVec a} {q : BitVec b} :
    x.extractLsb' s (a + b) = p ++ q ↔ x.extractLsb' (s + b) a = p ∧ x.extractLsb' s b = q := by
  rw [← BitVec.extractLsb'_append_extractLsb'_eq_extractLsb' rfl, bitVec_append_inj_iff]

/-- A whole vector under a mask, compared part by part. -/
theorem and_append_eq_append_iff {a b : Nat} {x : BitVec (a + b)} {c p : BitVec a} {d q : BitVec b} :
    x &&& (c ++ d) = p ++ q ↔ x.extractLsb' b a &&& c = p ∧ x.extractLsb' 0 b &&& d = q := by
  have h := extractLsb'_and_append_eq_append_iff (x := x) (s := 0) (c := c) (d := d) (p := p) (q := q)
  rwa [BitVec.extractLsb'_eq_self, Nat.zero_add] at h

/-! ## The fields of the window -/

/-- The bytes in the middle of a big-endian number are a field of it. -/
theorem extractLsb'_beValue {w n k : Nat} {xs ys zs : List Byte} (hw : w = 8 * (xs ++ ys ++ zs).length) (hn : ys.length = n)
    (hk : zs.length = k) :
    (BitVec.ofNat w (beValue (xs ++ ys ++ zs))).extractLsb' (8 * k) (8 * n) = BitVec.ofNat (8 * n) (beValue ys) := by
  subst hw hn hk
  have hpow : ∀ j, (2 : Nat) ^ (8 * j) = 256 ^ j := fun j => by rw [pow_mul]; norm_num
  have hlow : beValue (xs ++ ys ++ zs) / 256 ^ zs.length = beValue (xs ++ ys) := by
    rw [beValue_append _ zs, Nat.mul_comm, Nat.mul_add_div (by positivity), Nat.div_eq_of_lt (beValue_lt zs), Nat.add_zero]
  have hhigh : beValue (xs ++ ys) % 256 ^ ys.length = beValue ys % 256 ^ ys.length := by
    rw [beValue_append, Nat.mul_add_mod_self_right]
  apply BitVec.eq_of_toNat_eq
  rw [BitVec.extractLsb'_toNat, BitVec.toNat_ofNat, BitVec.toNat_ofNat, Nat.shiftRight_eq_div_pow, hpow, hpow, hpow,
    Nat.mod_eq_of_lt (beValue_lt _), hlow, hhigh]

/-- Bytes `12 + i` to `12 + i + n - 1` of the frame, where it has them, are a field of the window (R98). -/
theorem window_extractLsb' {m : Ifb} {i n k : Nat} (hk : i + n + k = 12) (hin : 12 + i + n ≤ m.length) :
    (window m).extractLsb' (8 * k) (8 * n) = BitVec.ofNat (8 * n) (beValue ((m.drop (12 + i)).take n)) := by
  have hfield : ((List.range n).map fun j => m.getD (12 + (i + j)) 0#8) = (m.drop (12 + i)).take n := by
    apply List.ext_getElem
    · simp; omega
    · intro j hj _
      have hjn : j < n := by simpa using hj
      simp [List.getElem?_eq_getElem (show 12 + (i + j) < m.length by omega), Nat.add_assoc]
  have hrange : List.range 12 = List.range (i + n + k) := by rw [hk]
  rw [window, hrange, List.range_add, List.range_add, List.map_append, List.map_append, List.map_map, Function.comp_def, hfield]
  exact extractLsb'_beValue (by simp; omega) (by simp; omega) (by simp)

/-! ## The checks of the table's rows -/

section
variable {m : Ifb}

theorem window_etherType (h : 14 ≤ m.length) : (window m).extractLsb' 80 16 = fieldU16 m 12 :=
  window_extractLsb' (i := 0) (n := 2) (k := 10) rfl h

theorem window_opcode (h : 22 ≤ m.length) : (window m).extractLsb' 16 16 = fieldU16 m 20 :=
  window_extractLsb' (i := 8) (n := 2) (k := 2) rfl h

theorem window_protocol (h : 24 ≤ m.length) : (window m).extractLsb' 0 8 = fieldU8 m 23 :=
  window_extractLsb' (i := 11) (n := 1) (k := 0) rfl h

theorem windowIhl_eq (h : 15 ≤ m.length) : windowIhl m = (ihlOf (fieldU8 m 14)).toNat := by
  have hbyte : (window m).extractLsb' 72 8 = fieldU8 m 14 := window_extractLsb' (i := 2) (n := 1) (k := 9) rfl h
  rw [windowIhl, ihlOf, ← hbyte]
  simp [BitVec.extractLsb'_toNat]

theorem window_arpFormat (h : 20 ≤ m.length) :
    (window m).extractLsb' 32 48 = 0x000108000604#48 ↔ arpFormatAt m 14 = true := by
  have hhwType : (window m).extractLsb' 64 16 = fieldU16 m 14 := window_extractLsb' (i := 2) (n := 2) (k := 8) rfl (by omega)
  have hprotoType : (window m).extractLsb' 48 16 = fieldU16 m 16 := window_extractLsb' (i := 4) (n := 2) (k := 6) rfl (by omega)
  have hhwLen : (window m).extractLsb' 40 8 = fieldU8 m 18 := window_extractLsb' (i := 6) (n := 1) (k := 5) rfl (by omega)
  have hprotoLen : (window m).extractLsb' 32 8 = fieldU8 m 19 := window_extractLsb' (i := 7) (n := 1) (k := 4) rfl (by omega)
  calc (window m).extractLsb' 32 (16 + (16 + (8 + 8))) = 0x0001#16 ++ (0x0800#16 ++ (6#8 ++ 4#8))
      ↔ fieldU16 m 14 = 0x0001#16 ∧ fieldU16 m 16 = 0x0800#16 ∧ fieldU8 m 18 = 6#8 ∧ fieldU8 m 19 = 4#8 := by
        simp only [extractLsb'_eq_append_iff, hhwType, hprotoType, hhwLen, hprotoLen]
    _ ↔ arpFormatAt m 14 = true := by simp [arpFormatAt, arpFormatSupported, and_assoc]

/-! ### The masks of the rows -/

theorem mask_etherType (h : 14 ≤ m.length) (etherType : U16) :
    window m &&& 0xffff00000000000000000000#96 = etherType ++ 0#80 ↔ fieldU16 m 12 = etherType := by
  refine (and_append_eq_append_iff (a := 16) (b := 80) (c := BitVec.allOnes 16) (d := 0#80)).trans ?_
  rw [BitVec.and_allOnes, BitVec.and_zero, window_etherType h, eq_self, and_true]

theorem mask_arp (h : 14 ≤ m.length) :
    window m &&& 0xffff00000000000000000000#96 = 0x080600000000000000000000#96 ↔ fieldU16 m 12 = etherArp :=
  mask_etherType h etherArp

theorem mask_ipv4 (h : 14 ≤ m.length) :
    window m &&& 0xffff00000000000000000000#96 = 0x080000000000000000000000#96 ↔ fieldU16 m 12 = etherIpv4 :=
  mask_etherType h etherIpv4

/-- `etherType` and the format of a supported ARP message, in the upper 64 bits. -/
theorem window_arpHeader (h : 20 ≤ m.length) :
    (window m).extractLsb' 32 64 = etherArp ++ 0x000108000604#48 ↔ fieldU16 m 12 = etherArp ∧ arpFormatAt m 14 = true := by
  rw [extractLsb'_eq_append_iff (a := 16) (b := 48), window_arpFormat h, window_etherType (by omega)]

theorem mask_arpFormat (h : 20 ≤ m.length) :
    window m &&& 0xffffffffffffffff00000000#96 = 0x080600010800060400000000#96
      ↔ fieldU16 m 12 = etherArp ∧ arpFormatAt m 14 = true := by
  refine (and_append_eq_append_iff (a := 64) (b := 32) (c := BitVec.allOnes 64) (d := 0#32)
    (p := etherArp ++ 0x000108000604#48) (q := 0#32)).trans ?_
  rw [BitVec.and_allOnes, BitVec.and_zero, window_arpHeader h, eq_self, and_true]

theorem mask_arpRequest (h : 22 ≤ m.length) :
    window m &&& 0xffffffffffffffffffff0000#96 = 0x080600010800060400010000#96
      ↔ (fieldU16 m 12 = etherArp ∧ arpFormatAt m 14 = true) ∧ fieldU16 m 20 = 1#16 := by
  refine (and_append_eq_append_iff (a := 64) (b := 32) (c := BitVec.allOnes 64) (d := BitVec.allOnes 16 ++ 0#16)
    (p := etherArp ++ 0x000108000604#48) (q := 1#16 ++ 0#16)).trans ?_
  rw [extractLsb'_and_append_eq_append_iff (a := 16) (b := 16), BitVec.and_allOnes, BitVec.and_allOnes, BitVec.and_zero,
    window_arpHeader (by omega), window_opcode h, eq_self, and_true]

theorem mask_udp (h : 24 ≤ m.length) :
    window m &&& 0xffff000000000000000000ff#96 = 0x080000000000000000000011#96
      ↔ fieldU16 m 12 = etherIpv4 ∧ fieldU8 m 23 = 17#8 := by
  refine (and_append_eq_append_iff (a := 16) (b := 80) (c := BitVec.allOnes 16) (d := 0#72 ++ BitVec.allOnes 8)
    (p := etherIpv4) (q := 0#72 ++ 17#8)).trans ?_
  rw [extractLsb'_and_append_eq_append_iff (a := 72) (b := 8), BitVec.and_allOnes, BitVec.and_allOnes, BitVec.and_zero,
    window_etherType (by omega), window_protocol h, eq_self, true_and]

end

/-! ## The first row that selects -/

/-- The ARP rows of the table, priorities 2 to 6. -/
def arpRows : List ClassRow := (classTable.drop 1).take 5

/-- The IPv4 rows of the table, priorities 7 to 12. -/
def ipv4Rows : List ClassRow := (classTable.drop 6).take 6

/-- The class of the first of these rows that selects the frame. -/
def classAmong (idIp : Ip) (m : Ifb) (rows : List ClassRow) : Option FrameClass :=
  (rows.find? fun r => r.selects idIp m).map ClassRow.cls

section
variable {idIp : Ip} {m : Ifb}

theorem classAmong_cons (r : ClassRow) (rows : List ClassRow) :
    classAmong idIp m (r :: rows) = if r.selects idIp m then some r.cls else classAmong idIp m rows := by
  unfold classAmong
  cases hsel : r.selects idIp m <;> simp [hsel]

theorem classAmong_nil : classAmong idIp m [] = none := rfl

theorem classAmong_append (rows rows' : List ClassRow) :
    classAmong idIp m (rows ++ rows') = (classAmong idIp m rows).or (classAmong idIp m rows') := by
  simp [classAmong, List.find?_append, Option.map_or]

/-- A row that compares the whole `etherType` selects frames of that one only. -/
theorem etherType_of_selects (h : 14 ≤ m.length) {r : ClassRow} (hmask : r.mask.extractLsb' 80 16 = BitVec.allOnes 16)
    (hsel : r.selects idIp m = true) : fieldU16 m 12 = r.pat.extractLsb' 80 16 := by
  simp only [ClassRow.selects, Bool.and_eq_true, beq_iff_eq] at hsel
  obtain ⟨hpat, _⟩ := hsel
  rw [← hpat, BitVec.extractLsb'_and, hmask, BitVec.and_allOnes, window_etherType h]

/-- Rows for one `etherType` select no frame of another. -/
theorem classAmong_eq_none (h : 14 ≤ m.length) {etherType : U16} {rows : List ClassRow}
    (hrows : ∀ r ∈ rows, r.mask.extractLsb' 80 16 = BitVec.allOnes 16 ∧ r.pat.extractLsb' 80 16 = etherType)
    (hne : fieldU16 m 12 ≠ etherType) : classAmong idIp m rows = none := by
  rw [classAmong, Option.map_eq_none_iff, List.find?_eq_none]
  intro r hr hsel
  obtain ⟨hmask, hpat⟩ := hrows r hr
  exact hne ((etherType_of_selects h hmask hsel).trans hpat)

theorem classAmong_arpRows_eq_none (h : 14 ≤ m.length) (hne : fieldU16 m 12 ≠ etherArp) :
    classAmong idIp m arpRows = none :=
  classAmong_eq_none h (by decide) hne

theorem classAmong_ipv4Rows_eq_none (h : 14 ≤ m.length) (hne : fieldU16 m 12 ≠ etherIpv4) :
    classAmong idIp m ipv4Rows = none :=
  classAmong_eq_none h (by decide) hne

theorem classify_runt (h : m.length < 14) : classify idIp m = some .ethRunt := by
  change classAmong idIp m classTable = _
  simp [classTable, classAmong_cons, ClassRow.selects, h]

/-- Past the runt, the ARP rows come first, then the IPv4 rows, and the last row takes what is left. -/
theorem classify_eq_or (h : 14 ≤ m.length) :
    classify idIp m = ((classAmong idIp m arpRows).or (classAmong idIp m ipv4Rows)).or (some .ethOther) := by
  have htable : classTable = [⟨.ethRunt, 0, 0, fun _ m => m.length < 14⟩] ++ (arpRows ++ ipv4Rows
      ++ [⟨.ethOther, 0, 0, fun _ m => 14 ≤ m.length⟩]) := rfl
  change classAmong idIp m classTable = _
  rw [htable, classAmong_append, classAmong_append, classAmong_append]
  simp [classAmong_cons, classAmong_nil, ClassRow.selects, Nat.not_lt.mpr h, h]

/-! ### ARP frames -/

theorem frameClass_arpInstrOf :
    (arpInstrOf idIp m).frameClass =
      if m.length < 42 then some .arpShort
      else if !arpFormatAt m 14 then some .arpBadfmt
      else if !isRequest (fieldU16 m 20) then some .arpNonreq
      else if fieldIp m 38 == idIp then some .arpReqMatch
      else some .arpReqOther := by
  simp only [arpInstrOf, apply_ite Instr.frameClass]
  rfl

/-- The ARP rows that ask for a whole message (R99, priorities 3 to 6), in the decoder's terms. -/
theorem classAmong_arpRows_of_whole (h : 42 ≤ m.length) (harp : fieldU16 m 12 = etherArp) :
    classAmong idIp m arpRows =
      if arpFormatAt m 14 = false then some .arpBadfmt
      else if (arpFormatAt m 14 = true ∧ fieldU16 m 20 = 1#16) ∧ fieldIp m 38 = idIp then some .arpReqMatch
      else if (arpFormatAt m 14 = true ∧ fieldU16 m 20 = 1#16) ∧ fieldIp m 38 ≠ idIp then some .arpReqOther
      else if arpFormatAt m 14 = true ∧ fieldU16 m 20 ≠ 1#16 then some .arpNonreq
      else none := by
  have htarget : windowTargetIp m = fieldIp m 38 := rfl
  simp [arpRows, classTable, classAmong_cons, classAmong_nil, ClassRow.selects, harp, htarget, h, Nat.not_lt.mpr h,
    mask_arp (show 14 ≤ m.length by omega), window_arpFormat (show 20 ≤ m.length by omega),
    mask_arpRequest (show 22 ≤ m.length by omega), mask_arpFormat (show 20 ≤ m.length by omega),
    window_opcode (show 22 ≤ m.length by omega)]

/-- A row repeats what the rows before it left, so the first that selects is the decoder's first check that decides. -/
theorem classAmong_arpRows (h : 14 ≤ m.length) (harp : fieldU16 m 12 = etherArp) :
    classAmong idIp m arpRows = (arpInstrOf idIp m).frameClass := by
  rw [frameClass_arpInstrOf]
  by_cases hshort : m.length < 42
  · simp [arpRows, classTable, classAmong_cons, ClassRow.selects, mask_arp h, harp, hshort]
  · rw [classAmong_arpRows_of_whole (by omega) harp]
    grind [isRequest]

/-! ### IPv4 frames -/

theorem frameClass_ipv4InstrOf :
    (ipv4InstrOf m).frameClass =
      if m.length < 34 then some .ipv4Short
      else if ihlMalformed (ihlOf (fieldU8 m 14)) then some .ipv4Badihl
      else if m.length < 14 + headerLength (ihlOf (fieldU8 m 14)) then some .ipv4Trunc
      else if !isUdp (fieldU8 m 23) then some .ipv4Nonudp
      else if m.length < 14 + headerLength (ihlOf (fieldU8 m 14)) + 8 then some .udpShort
      else some .ipv4Udp := by
  simp only [ipv4InstrOf, apply_ite Instr.frameClass]
  rfl

/-- The IPv4 rows that ask for a header (R99, priorities 8 to 12), in the decoder's terms. -/
theorem classAmong_ipv4Rows_of_header (h : 34 ≤ m.length) (hipv4 : fieldU16 m 12 = etherIpv4) {ihl : Nat}
    (hihl : (ihlOf (fieldU8 m 14)).toNat = ihl) :
    classAmong idIp m ipv4Rows =
      if ihl < 5 then some .ipv4Badihl
      else if 5 ≤ ihl ∧ m.length < 14 + 4 * ihl then some .ipv4Trunc
      else if (5 ≤ ihl ∧ 14 + 4 * ihl ≤ m.length) ∧ fieldU8 m 23 ≠ 17#8 then some .ipv4Nonudp
      else if fieldU8 m 23 = 17#8 ∧ (5 ≤ ihl ∧ 14 + 4 * ihl ≤ m.length) ∧ m.length < 14 + 4 * ihl + 8 then some .udpShort
      else if fieldU8 m 23 = 17#8 ∧ 5 ≤ ihl ∧ 14 + 4 * ihl + 8 ≤ m.length then some .ipv4Udp
      else none := by
  simp [ipv4Rows, classTable, classAmong_cons, classAmong_nil, ClassRow.selects, hipv4, hihl, h, Nat.not_lt.mpr h,
    mask_ipv4 (show 14 ≤ m.length by omega), windowIhl_eq (show 15 ≤ m.length by omega),
    mask_udp (show 24 ≤ m.length by omega), window_protocol (show 24 ≤ m.length by omega)]

/-- As for ARP: what a row repeats, the rows before it have left. -/
theorem classAmong_ipv4Rows (h : 14 ≤ m.length) (hipv4 : fieldU16 m 12 = etherIpv4) :
    classAmong idIp m ipv4Rows = (ipv4InstrOf m).frameClass := by
  rw [frameClass_ipv4InstrOf]
  by_cases hshort : m.length < 34
  · simp [ipv4Rows, classTable, classAmong_cons, ClassRow.selects, mask_ipv4 h, hipv4, hshort]
  · rw [classAmong_ipv4Rows_of_header (by omega) hipv4 rfl]
    grind [ihlMalformed, headerLength, isUdp]

/-! ### Every frame -/

theorem exists_frameClass_of_ingress {i : Instr} (h : i.port = .ingress) : ∃ c, i.frameClass = some c := by
  cases i with
  | txArpReply tm ti sm si => cases h
  | _ => exact ⟨_, rfl⟩

/-- The table's class is the one of the decoder's instruction (R99, R101). -/
theorem classify_eq_frameClass (idIp : Ip) (m : Ifb) : classify idIp m = (instrOf idIp m).frameClass := by
  unfold instrOf
  split_ifs with hrunt harp hipv4
  · exact classify_runt hrunt
  all_goals
    simp only [beq_iff_eq] at *
    rw [classify_eq_or (by omega)]
  · obtain ⟨c, hclass⟩ := exists_frameClass_of_ingress (arpInstrOf_port idIp m)
    rw [classAmong_arpRows (by omega) harp, hclass]
    rfl
  · obtain ⟨c, hclass⟩ := exists_frameClass_of_ingress (ipv4InstrOf_port m)
    rw [classAmong_arpRows_eq_none (by omega) harp, classAmong_ipv4Rows (by omega) hipv4, hclass]
    rfl
  · rw [classAmong_arpRows_eq_none (by omega) harp, classAmong_ipv4Rows_eq_none (by omega) hipv4]
    rfl

end

/-- Settles O18: the decoder gives the instruction of the frame, whose class is the table's. -/
theorem everyFrameIsDecodedToItsTableClass : Obligations.EveryFrameIsDecodedToItsTableClass := by
  intro idIp F
  obtain ⟨c, hclass⟩ := exists_frameClass_of_ingress (instrOf_port idIp (loadIfb F))
  exact ⟨instrOf idIp (loadIfb F), c, decode_ingress_eq idIp F, hclass, (classify_eq_frameClass idIp (loadIfb F)).trans hclass⟩

end Sys2Proof
end

section
/-! PROOFS that an encoded instruction is decoded to itself: O16, with the reply's layout, O19, and the sample frames, O21. Each
field is read from the bytes it was written to. -/

namespace Sys2Proof

/-! ## Reading the bytes that were written -/

section
variable {xs : List Byte} {a : Nat} (ys : List Byte)

/-- An offset past the first part of a list lies in the second. -/
theorem drop_append_of_length_le (h : xs.length ≤ a) : (xs ++ ys).drop a = ys.drop (a - xs.length) := by
  rw [List.drop_append, List.drop_eq_nil_of_le h, List.nil_append]

@[simp] theorem fieldU8_append_right (h : xs.length ≤ a) : fieldU8 (xs ++ ys) a = fieldU8 ys (a - xs.length) := by
  rw [fieldU8, drop_append_of_length_le ys h, fieldU8]

@[simp] theorem fieldU16_append_right (h : xs.length ≤ a) : fieldU16 (xs ++ ys) a = fieldU16 ys (a - xs.length) := by
  rw [fieldU16, drop_append_of_length_le ys h, fieldU16]

@[simp] theorem fieldIp_append_right (h : xs.length ≤ a) : fieldIp (xs ++ ys) a = fieldIp ys (a - xs.length) := by
  rw [fieldIp, drop_append_of_length_le ys h, fieldIp]

@[simp] theorem fieldMac_append_right (h : xs.length ≤ a) : fieldMac (xs ++ ys) a = fieldMac ys (a - xs.length) := by
  rw [fieldMac, drop_append_of_length_le ys h, fieldMac]

@[simp] theorem fieldU8_cons_zero (b : Byte) : fieldU8 (b :: ys) 0 = b := by
  simp [fieldU8]

@[simp] theorem fieldU8_cons_succ (b : Byte) : fieldU8 (b :: ys) (a + 1) = fieldU8 ys a := rfl

@[simp] theorem fieldU16_cons_succ (b : Byte) : fieldU16 (b :: ys) (a + 1) = fieldU16 ys a := rfl
@[simp] theorem fieldIp_cons_succ (b : Byte) : fieldIp (b :: ys) (a + 1) = fieldIp ys a := rfl
@[simp] theorem fieldMac_cons_succ (b : Byte) : fieldMac (b :: ys) (a + 1) = fieldMac ys a := rfl

@[simp] theorem fieldU16_u16Bytes (v : U16) : fieldU16 (u16Bytes v ++ ys) 0 = v := by
  simp [fieldU16, List.take_left']

@[simp] theorem fieldIp_ipBytes (v : Ip) : fieldIp (ipBytes v ++ ys) 0 = v := by
  simp [fieldIp, List.take_left']

@[simp] theorem fieldMac_macBytes (v : Mac) : fieldMac (macBytes v ++ ys) 0 = v := by
  simp [fieldMac, List.take_left']

end

/-! ### The Ethernet header (R90) -/

section
variable (idIp : Ip) (dst src : Mac) (etherType : U16) (body : List Byte)

@[simp] theorem ethBytes_length : (ethBytes dst src etherType).length = 14 := by
  simp [ethBytes]

@[simp] theorem fieldMac_ethBytes_dst : fieldMac (ethBytes dst src etherType ++ body) 0 = dst := by
  simp [ethBytes]

@[simp] theorem fieldMac_ethBytes_src : fieldMac (ethBytes dst src etherType ++ body) 6 = src := by
  simp [ethBytes]

@[simp] theorem fieldU16_ethBytes : fieldU16 (ethBytes dst src etherType ++ body) 12 = etherType := by
  simp [ethBytes]

@[simp] theorem drop_ethBytes_append {a : Nat} (h : 14 ≤ a) :
    (ethBytes dst src etherType ++ body).drop a = body.drop (a - 14) := by
  rw [drop_append_of_length_le body (by simpa using h), ethBytes_length]

theorem arpFormatAt_ethBytes_append : arpFormatAt (ethBytes dst src etherType ++ body) 14 = arpFormatAt body 0 := by
  simp [arpFormatAt]

theorem instrOf_ethBytes_arp :
    instrOf idIp (ethBytes dst src etherArp ++ body) = arpInstrOf idIp (ethBytes dst src etherArp ++ body) := by
  simp [instrOf]

theorem instrOf_ethBytes_ipv4 :
    instrOf idIp (ethBytes dst src etherIpv4 ++ body) = ipv4InstrOf (ethBytes dst src etherIpv4 ++ body) := by
  simp [instrOf, Machine.etherIpv4_ne_etherArp]

theorem instrOf_ethBytes_other (harp : etherType ≠ etherArp) (hipv4 : etherType ≠ etherIpv4) :
    instrOf idIp (ethBytes dst src etherType ++ body) = .ethOther dst src etherType body := by
  simp [instrOf, harp, hipv4]

end

/-! ## ARP frames (R91) -/

section
variable (idIp : Ip) (dst src : Mac)

theorem arpInstrOf_short {body : List Byte} (h : body.length < 28) :
    arpInstrOf idIp (ethBytes dst src etherArp ++ body) = .arpShort dst src body := by
  have hlen : (ethBytes dst src etherArp ++ body).length < 42 := by simp; omega
  rw [arpInstrOf, if_pos hlen]
  simp

theorem arpInstrOf_badfmt {hwType protoType : U16} {hwLen protoLen : U8} {rest : List Byte} (hrest : 22 ≤ rest.length)
    (hformat : arpFormatSupported hwType protoType hwLen protoLen = false) :
    arpInstrOf idIp (ethBytes dst src etherArp ++ (u16Bytes hwType ++ (u16Bytes protoType ++ hwLen :: protoLen :: rest)))
      = .arpBadfmt dst src hwType protoType hwLen protoLen rest := by
  rw [arpInstrOf, if_neg (by simp; omega)]
  simp [arpFormatAt, hformat, drop_append_of_length_le]

theorem arpInstrOf_arpBytes (opcode : U16) (sha : Mac) (spa : Ip) (tha : Mac) (tpa : Ip) (trailer : List Byte) :
    arpInstrOf idIp (ethBytes dst src etherArp ++ (arpBytes opcode sha spa tha tpa ++ trailer)) =
      if !isRequest opcode then .arpNonreq dst src opcode sha spa tha tpa trailer
      else if tpa == idIp then .arpReqMatch dst src sha spa tha tpa trailer
      else .arpReqOther dst src sha spa tha tpa trailer := by
  have hlen : ¬ (ethBytes dst src etherArp ++ (arpBytes opcode sha spa tha tpa ++ trailer)).length < 42 := by
    simp [arpBytes]; omega
  have hformat : arpFormatAt (arpBytes opcode sha spa tha tpa ++ trailer) 0 = true := rfl
  rw [arpInstrOf, if_neg hlen, arpFormatAt_ethBytes_append, hformat]
  simp [arpBytes, drop_append_of_length_le]

end

/-! ## IPv4 frames (R92, R94) -/

theorem versionOf_versionIhlByte (version ihl : BitVec 4) : versionOf (versionIhlByte version ihl) = version :=
  BitVec.extractLsb'_append_eq_left

theorem ihlOf_versionIhlByte (version ihl : BitVec 4) : ihlOf (versionIhlByte version ihl) = ihl :=
  BitVec.extractLsb'_append_eq_right

theorem ihl_of_wf {ip : Ipv4Fields} (h : ip.wf = true) : ihlMalformed ip.ihl = false := by
  simp only [Ipv4Fields.wf, Bool.and_eq_true, Bool.not_eq_true'] at h
  exact h.1

theorem options_length_of_wf {ip : Ipv4Fields} (h : ip.wf = true) : ip.options.length + 20 = headerLength ip.ihl := by
  simp only [Ipv4Fields.wf, Bool.and_eq_true, beq_iff_eq] at h
  exact h.2

theorem ipv4Bytes_length {ip : Ipv4Fields} (h : ip.wf = true) : (ipv4Bytes ip).length = headerLength ip.ihl := by
  have hoptions := options_length_of_wf h
  simp [ipv4Bytes]
  omega

section
variable (dst src : Mac)

theorem ipv4InstrOf_short {body : List Byte} (h : body.length < 20) :
    ipv4InstrOf (ethBytes dst src etherIpv4 ++ body) = .ipv4Short dst src body := by
  have hlen : (ethBytes dst src etherIpv4 ++ body).length < 34 := by simp; omega
  simp only [ipv4InstrOf, if_pos hlen]
  simp

theorem ipv4InstrOf_badihl {version ihl : BitVec 4} {rest : List Byte} (hrest : 19 ≤ rest.length)
    (hihl : ihlMalformed ihl = true) :
    ipv4InstrOf (ethBytes dst src etherIpv4 ++ versionIhlByte version ihl :: rest) = .ipv4Badihl dst src version ihl rest := by
  have hlen : ¬ (ethBytes dst src etherIpv4 ++ versionIhlByte version ihl :: rest).length < 34 := by simp; omega
  simp only [ipv4InstrOf, if_neg hlen]
  simp [versionOf_versionIhlByte, ihlOf_versionIhlByte, hihl]

theorem ipv4InstrOf_trunc {version ihl : BitVec 4} {rest : List Byte} (hrest : 19 ≤ rest.length)
    (hihl : ihlMalformed ihl = false) (htrunc : rest.length + 1 < headerLength ihl) :
    ipv4InstrOf (ethBytes dst src etherIpv4 ++ versionIhlByte version ihl :: rest) = .ipv4Trunc dst src version ihl rest := by
  have hlen : ¬ (ethBytes dst src etherIpv4 ++ versionIhlByte version ihl :: rest).length < 34 := by simp; omega
  simp only [ipv4InstrOf, if_neg hlen]
  simp [versionOf_versionIhlByte, ihlOf_versionIhlByte, hihl, htrunc]

/-- Every field of the header is read back, the options by their length, which the IHL gives (R92). -/
theorem ipv4FieldsOf_ipv4Bytes {ip : Ipv4Fields} (h : ip.wf = true) (payload : List Byte) :
    ipv4FieldsOf (ethBytes dst src etherIpv4 ++ (ipv4Bytes ip ++ payload)) = ip := by
  have hoptions := options_length_of_wf h
  simp [ipv4FieldsOf, ipv4Bytes, drop_append_of_length_le, versionOf_versionIhlByte, ihlOf_versionIhlByte, List.take_left',
    ← hoptions]

@[simp] theorem udpBytes_length (udp : UdpFields) : (udpBytes udp).length = 8 := by
  simp [udpBytes]

theorem udpFieldsAt_udpBytes (udp : UdpFields) (data : List Byte) : udpFieldsAt (udpBytes udp ++ data) 0 = udp := by
  simp [udpFieldsAt, udpBytes]

theorem udpFieldsAt_append {header payload : List Byte} {u : Nat} (h : header.length = u) :
    udpFieldsAt (header ++ payload) u = udpFieldsAt payload 0 := by
  simp [udpFieldsAt, h]

theorem ipv4InstrOf_ipv4Bytes {ip : Ipv4Fields} (h : ip.wf = true) (payload : List Byte) :
    ipv4InstrOf (ethBytes dst src etherIpv4 ++ (ipv4Bytes ip ++ payload)) =
      if !isUdp ip.protocol then .ipv4Nonudp dst src ip payload
      else if payload.length < 8 then .udpShort dst src ip payload
      else .ipv4Udp dst src ip (udpFieldsAt payload 0) (payload.drop 8) := by
  have hheader : (ethBytes dst src etherIpv4 ++ ipv4Bytes ip).length = 14 + headerLength ip.ihl := by
    simp [ipv4Bytes_length h]
  have hfields := ipv4FieldsOf_ipv4Bytes dst src h payload
  have hihl : ihlOf (fieldU8 (ethBytes dst src etherIpv4 ++ (ipv4Bytes ip ++ payload)) 14) = ip.ihl :=
    congrArg Ipv4Fields.ihl hfields
  have hprotocol : fieldU8 (ethBytes dst src etherIpv4 ++ (ipv4Bytes ip ++ payload)) 23 = ip.protocol :=
    congrArg Ipv4Fields.protocol hfields
  have hvalid := ihl_of_wf h
  have hmin := headerLength_ge hvalid
  simp only [ipv4InstrOf, hihl, hprotocol, hfields, hvalid, fieldMac_ethBytes_dst, fieldMac_ethBytes_src]
  rw [← List.append_assoc, udpFieldsAt_append hheader, List.drop_left' hheader, List.length_append, hheader, ← List.drop_drop,
    List.drop_left' hheader, if_neg (by omega), if_neg (by simp), if_neg (by omega)]
  simp only [Nat.add_lt_add_iff_left]

end

/-! ## Every instruction -/

/-- The conditions of a class (R99) are the checks by which the decoder comes to its instruction. -/
theorem instrOf_encode {idIp : Ip} {i : Instr} (hwf : i.wf idIp = true) (hport : i.port = .ingress) :
    instrOf idIp (encode i) = i := by
  cases i with
  | txArpReply tm ti sm si => cases hport
  | ethRunt bytes =>
    simp only [Instr.wf, decide_eq_true_eq] at hwf
    rw [encode, instrOf, if_pos hwf]
  | arpShort dst src body =>
    simp only [Instr.wf, decide_eq_true_eq] at hwf
    rw [encode, instrOf_ethBytes_arp, arpInstrOf_short idIp dst src hwf]
  | arpBadfmt dst src hwType protoType hwLen protoLen rest =>
    simp only [Instr.wf, Bool.and_eq_true, Bool.not_eq_true', decide_eq_true_eq] at hwf
    obtain ⟨⟨hformat, hrest⟩, _⟩ := hwf
    simp only [encode, List.append_assoc, List.cons_append, List.nil_append]
    rw [instrOf_ethBytes_arp, arpInstrOf_badfmt idIp dst src hrest hformat]
  | arpReqMatch dst src sha spa tha tpa trailer =>
    simp only [Instr.wf, Bool.and_eq_true] at hwf
    obtain ⟨htarget, _⟩ := hwf
    rw [encode, List.append_assoc, instrOf_ethBytes_arp, arpInstrOf_arpBytes, if_pos htarget]
    rfl
  | arpReqOther dst src sha spa tha tpa trailer =>
    simp only [Instr.wf, Bool.and_eq_true, bne, Bool.not_eq_true'] at hwf
    obtain ⟨htarget, _⟩ := hwf
    rw [encode, List.append_assoc, instrOf_ethBytes_arp, arpInstrOf_arpBytes, htarget]
    rfl
  | arpNonreq dst src opcode sha spa tha tpa trailer =>
    simp only [Instr.wf, Bool.and_eq_true] at hwf
    obtain ⟨hopcode, _⟩ := hwf
    rw [encode, List.append_assoc, instrOf_ethBytes_arp, arpInstrOf_arpBytes, if_pos hopcode]
  | ipv4Short dst src body =>
    simp only [Instr.wf, decide_eq_true_eq] at hwf
    rw [encode, instrOf_ethBytes_ipv4, ipv4InstrOf_short dst src hwf]
  | ipv4Badihl dst src version ihl rest =>
    simp only [Instr.wf, Bool.and_eq_true, decide_eq_true_eq] at hwf
    obtain ⟨⟨hihl, hrest⟩, _⟩ := hwf
    rw [encode, instrOf_ethBytes_ipv4, ipv4InstrOf_badihl dst src hrest hihl]
  | ipv4Trunc dst src version ihl rest =>
    simp only [Instr.wf, Bool.and_eq_true, Bool.not_eq_true', decide_eq_true_eq] at hwf
    obtain ⟨⟨hihl, hrest⟩, htrunc⟩ := hwf
    rw [encode, instrOf_ethBytes_ipv4, ipv4InstrOf_trunc dst src hrest hihl htrunc]
  | ipv4Nonudp dst src ip payload =>
    simp only [Instr.wf, Bool.and_eq_true] at hwf
    obtain ⟨⟨hip, hother⟩, _⟩ := hwf
    rw [encode, List.append_assoc, instrOf_ethBytes_ipv4, ipv4InstrOf_ipv4Bytes dst src hip, if_pos hother]
  | udpShort dst src ip payload =>
    simp only [Instr.wf, Bool.and_eq_true, decide_eq_true_eq] at hwf
    obtain ⟨⟨hip, hudp⟩, hlen⟩ := hwf
    rw [encode, List.append_assoc, instrOf_ethBytes_ipv4, ipv4InstrOf_ipv4Bytes dst src hip, hudp, if_pos hlen]
    rfl
  | ipv4Udp dst src ip udp data =>
    simp only [Instr.wf, Bool.and_eq_true, decide_eq_true_eq] at hwf
    obtain ⟨⟨hip, hudp⟩, _⟩ := hwf
    rw [encode, List.append_assoc, List.append_assoc, instrOf_ethBytes_ipv4, ipv4InstrOf_ipv4Bytes dst src hip, hudp,
      if_neg (by simp), if_neg (by simp), udpFieldsAt_udpBytes, List.drop_left' (udpBytes_length udp)]
  | ethOther dst src etherType payload =>
    simp only [Instr.wf, Bool.and_eq_true, bne_iff_ne] at hwf
    obtain ⟨⟨harp, hipv4⟩, _⟩ := hwf
    exact instrOf_ethBytes_other idIp dst src etherType payload harp hipv4

theorem encodedSize (i : Instr) : Laws.EncodedSize.Statement i := by
  cases i with
  | ethRunt => exact Laws.EncodedSize.ethRunt _
  | arpShort => exact Laws.EncodedSize.arpShort _ _ _
  | arpBadfmt => exact Laws.EncodedSize.arpBadfmt _ _ _ _ _ _ _
  | arpReqMatch => exact Laws.EncodedSize.arpReqMatch _ _ _ _ _ _ _
  | arpReqOther => exact Laws.EncodedSize.arpReqOther _ _ _ _ _ _ _
  | arpNonreq => exact Laws.EncodedSize.arpNonreq _ _ _ _ _ _ _ _
  | ipv4Short => exact Laws.EncodedSize.ipv4Short _ _ _
  | ipv4Badihl => exact Laws.EncodedSize.ipv4Badihl _ _ _ _ _
  | ipv4Trunc => exact Laws.EncodedSize.ipv4Trunc _ _ _ _ _
  | ipv4Nonudp => exact Laws.EncodedSize.ipv4Nonudp _ _ _ _
  | udpShort => exact Laws.EncodedSize.udpShort _ _ _ _
  | ipv4Udp => exact Laws.EncodedSize.ipv4Udp _ _ _ _ _
  | ethOther => exact Laws.EncodedSize.ethOther _ _ _ _
  | txArpReply => exact Laws.EncodedSize.txArpReply _ _ _ _

/-- The frame of a well-formed ingress instruction fits `IFB`, so that no byte of it is discarded (R61). -/
theorem loadIfb_encode {idIp : Ip} {i : Instr} (hwf : i.wf idIp = true) (hport : i.port = .ingress) :
    loadIfb (encode i) = encode i := by
  obtain ⟨hingress, _⟩ := encodedSize i idIp hwf
  exact loadIfb_eq_of_le (encode i) (hingress hport)

theorem decodeReply_encode (tm : Mac) (ti : Ip) (sm : Mac) (si : Ip) :
    decodeReply (encode (.txArpReply tm ti sm si)) = .ok (.txArpReply tm ti sm si) := by
  have hformat : replyFormat (encode (.txArpReply tm ti sm si)) = true := by
    have hetherType : u16Bytes etherArp = [0x08#8, 0x06#8] := rfl
    have hopcode : u16Bytes 2#16 = [0x00#8, 0x02#8] := rfl
    simp [replyFormat, encode, ethBytes, arpBytes, hetherType, hopcode, drop_append_of_length_le]
  rw [decodeReply_eq (by simp [encode, arpBytes]), if_pos hformat]
  simp [encode, arpBytes]

/-- Settles O16: on the ingress port by `instrOf_encode`, on the egress port by `decodeReply_encode`. -/
theorem decodingAnEncodedInstructionGivesItBack : Obligations.DecodingAnEncodedInstructionGivesItBack := by
  intro idIp i hwf
  rcases Machine.ingressResult_or_reply 0 idIp i with ⟨hport, _⟩ | ⟨_, tm, ti, sm, si, rfl⟩
  · rw [hport, decode_ingress_eq, loadIfb_encode hwf hport, instrOf_encode hwf hport]
  · exact decodeReply_encode tm ti sm si

/-! ## The reply's layout and the sample frames -/

/-- Settles O19: the encoder's writes are the bytes of `encode`, which lays the format out field by field. -/
theorem replyIsLaidOutAsTheFormatSays : Obligations.ReplyIsLaidOutAsTheFormatSays := by
  intro tm sm ti si
  refine ⟨?_, encodeArpReply_wf tm ti sm si⟩
  rw [encodeArpReply_eq_encode]
  simp only [encode, ethBytes, arpBytes, List.append_assoc]
  rfl

theorem decode_of_encode {idIp : Ip} {i : Instr} {frame : List Byte} (hframe : encode i = frame) (hwf : i.wf idIp = true) :
    decode idIp i.port frame = .ok i :=
  hframe ▸ decodingAnEncodedInstructionGivesItBack idIp i hwf

/-- Settles O21: each frame is the encoding of its instruction, which is well-formed under the identity. -/
theorem sampleFramesDecode : Obligations.SampleFramesDecode :=
  ⟨decode_of_encode (i := .ethRunt _) rfl (by decide),
    decode_of_encode (i := .arpShort _ _ _) (by decide) (by decide),
    decode_of_encode (i := .arpBadfmt _ _ _ _ _ _ _) (by decide) (by decide),
    decode_of_encode (i := .arpReqMatch _ _ _ _ _ _ _) (by decide) (by decide),
    decode_of_encode (i := .arpReqOther _ _ _ _ _ _ _) (by decide) (by decide)⟩

end Sys2Proof
end

section
/-! PROOFS that the bytes of a frame that ProcessFrame does not read select nothing: O35 and O36. Frames with the same slices have
the same fields there, so the decodes give ProcessFrame the same values. -/

namespace Sys2Proof

/-! ## Frames with the same slice -/

section
variable {m m' : Ifb} {start len a n : Nat} (hslice : (m.drop start).take len = (m'.drop start).take len)
include hslice

/-- Frames with the same bytes in a range have the same bytes in every part of it. -/
theorem slice_congr (hstart : start ≤ a) (hend : a + n ≤ start + len) : (m.drop a).take n = (m'.drop a).take n := by
  have hpart : ∀ l : Ifb, (((l.drop start).take len).drop (a - start)).take n = (l.drop a).take n := by
    intro l
    rw [List.drop_take, List.drop_drop, List.take_take, Nat.add_sub_cancel' hstart, Nat.min_eq_left (by omega)]
  rw [← hpart m, ← hpart m', hslice]

theorem fieldU8_congr (hstart : start ≤ a) (hend : a + 1 ≤ start + len) : fieldU8 m a = fieldU8 m' a := by
  rw [fieldU8, slice_congr hslice hstart hend, fieldU8]

theorem fieldU16_congr (hstart : start ≤ a) (hend : a + 2 ≤ start + len) : fieldU16 m a = fieldU16 m' a := by
  rw [fieldU16, slice_congr hslice hstart hend, fieldU16]

theorem fieldIp_congr (hstart : start ≤ a) (hend : a + 4 ≤ start + len) : fieldIp m a = fieldIp m' a := by
  rw [fieldIp, slice_congr hslice hstart hend, fieldIp]

theorem fieldMac_congr (hstart : start ≤ a) (hend : a + 6 ≤ start + len) : fieldMac m a = fieldMac m' a := by
  rw [fieldMac, slice_congr hslice hstart hend, fieldMac]

end

/-- The bytes that `IFB` keeps are the frame's own (R61). -/
theorem loadIfb_slice (F : List Byte) {a n : Nat} (h : a + n ≤ 2048) : ((loadIfb F).drop a).take n = (F.drop a).take n := by
  rw [loadIfb, List.drop_take, List.take_take, Nat.min_eq_left (by simp only [Config.maxFrame]; omega)]

theorem loadIfb_length_ge {F : List Byte} {n : Nat} (hn : n ≤ 2048) (h : n ≤ F.length) : n ≤ (loadIfb F).length := by
  simp only [loadIfb, List.length_take, Config.maxFrame]
  omega

theorem fieldU16_of_hasEtherType {m : Ifb} {etherType : U16} (h : 14 ≤ m.length) (htype : Machine.HasEtherType m etherType) :
    fieldU16 m 12 = etherType := by
  rw [Machine.HasEtherType, readU16_ok m 12 h] at htype
  exact Except.ok.inj htype

/-! ## What the decodes read -/

/-- `decodeArp` reads the 28 bytes of the message only (R137). -/
theorem decodeArp_congr {m m' : Ifb} {b n n' : Nat} (hslice : (m.drop b).take 28 = (m'.drop b).take 28) (hn : 28 ≤ n)
    (hn' : 28 ≤ n') (hm : b + n ≤ m.length) (hm' : b + n' ≤ m'.length) : decodeArp m b n = decodeArp m' b n' := by
  have hformat : arpFormatAt m b = arpFormatAt m' b := by
    simp (disch := omega) only [arpFormatAt, fieldU16_congr hslice, fieldU8_congr hslice]
  have hmessage : arpAt m b = arpAt m' b := by
    simp (disch := omega) only [arpAt, fieldU16_congr hslice, fieldU8_congr hslice, fieldIp_congr hslice,
      fieldMac_congr hslice]
  rw [decodeArp_long m b n hn hm, decodeArp_long m' b n' hn' hm', hformat, hmessage]

/-- `decodeUdp` reads the ports, the length and the bytes behind the header, not the checksum (R153). -/
theorem decodeUdp_congr {m m' : Ifb} {u n : Nat} (hslice : (m.drop u).take 6 = (m'.drop u).take 6)
    (hdata : m.drop (u + 8) = m'.drop (u + 8)) (hm : 8 ≤ n → u + n ≤ m.length) (hm' : 8 ≤ n → u + n ≤ m'.length) :
    decodeUdp m u n = decodeUdp m' u n := by
  rcases Nat.lt_or_ge n 8 with hshort | hlong
  · rw [decodeUdp_short m u n hshort, decodeUdp_short m' u n hshort]
  · rw [decodeUdp_long m u n hlong (hm hlong), decodeUdp_long m' u n hlong (hm' hlong), hdata]
    simp (disch := omega) only [fieldU16_congr hslice]

end Sys2Proof

namespace Sys2Proof.Machine

section
variable {idMac : Mac} {idIp : Ip} {m m' : Ifb}

theorem dispatchPath_arp_congr (h : 14 ≤ m.length) (h' : 14 ≤ m'.length) (harp : fieldU16 m 12 = etherArp)
    (harp' : fieldU16 m' 12 = etherArp) (hdecode : decodeArp m 14 (m.length - 14) = decodeArp m' 14 (m'.length - 14)) :
    dispatchPath idMac idIp m = dispatchPath idMac idIp m' := by
  simp only [dispatchPath, decodeEthernet_ok m h, decodeEthernet_ok m' h', ok_bind, harp, harp', hdecode, if_true]

/-- ProcessFrame's path for an IPv4 frame with a header, by the fields it reads (R211). -/
theorem dispatchPath_ipv4 (h : 34 ≤ m.length) (hipv4 : fieldU16 m 12 = etherIpv4) {hl : Nat}
    (hhl : headerLength (ihlOf (fieldU8 m 14)) = hl) :
    dispatchPath idMac idIp m =
      if ihlMalformed (ihlOf (fieldU8 m 14)) then .error (.drop .malformedIpv4Ihl)
      else if m.length - 14 < hl then .error (.drop .malformedIpv4Trunc)
      else if fieldU8 m 23 ≠ 17#8 then .ok (.ipv4NotUdp, [])
      else do
        let udp ← decodeUdp m (14 + hl) (m.length - 14 - hl)
        return (.udpReported,
          [.ev (.udpPacketObserved (fieldIp m 26) udp.srcPort (fieldIp m 30) udp.dstPort udp.payload)]) := by
  subst hhl
  have hdecode := decodeIpv4_long m 14 (m.length - 14) (by omega) (by omega)
  split_ifs at hdecode ⊢ with hihl htrunc hother
  · exact dispatchPath_ipv4_drop (by omega) hipv4 hdecode
  · exact dispatchPath_ipv4_drop (by omega) hipv4 hdecode
  · exact dispatchPath_ipv4_nonudp (by omega) hipv4 hdecode hother
  · have hudp : (ipv4At m 14 (m.length - 14)).protocol = 17#8 := not_not.mp hother
    simp [dispatchPath, decodeEthernet_ok m (by omega), hipv4, etherIpv4_ne_etherArp, hdecode, hudp]
    rfl

end

/-- Settles O35: past the Ethernet header `decodeArp` reads the message only, which the frames share. -/
theorem arpFramesAreDecidedByTheirMessage : Obligations.ArpFramesAreDecidedByTheirMessage := by
  intro report idMac idIp F G htype hF hG hFG
  have hslice : ((loadIfb F).drop 12).take 30 = ((loadIfb G).drop 12).take 30 := by
    rw [loadIfb_slice F (by decide), loadIfb_slice G (by decide), hFG]
  have hlenF := loadIfb_length_ge (by decide) hF
  have hlenG := loadIfb_length_ge (by decide) hG
  have harp := fieldU16_of_hasEtherType (by omega) htype
  have harp' := harp.symm.trans (fieldU16_congr hslice le_rfl (by decide))
  have hdecode := decodeArp_congr (slice_congr hslice (a := 14) (n := 28) (by decide) (by decide))
    (n := (loadIfb F).length - 14) (n' := (loadIfb G).length - 14) (by omega) (by omega) (by omega) (by omega)
  rw [processFrame, processFrame, dispatchPath_arp_congr (by omega) (by omega) harp harp'.symm hdecode]

/-- Settles O36: the fields that ProcessFrame's path reads are in the slices the frames share. -/
theorem ipv4FramesAreDecidedByTheReadFields : Obligations.Ipv4FramesAreDecidedByTheReadFields := by
  intro report idMac idIp F G vF vG hlen h34 hmax htypeF htypeG hvF hvG hihl hprotocol haddresses hports hdata
  rw [readU8_ok F 14 (by omega)] at hvF
  rw [readU8_ok G 14 (by omega)] at hvG
  rw [readU8_ok F 23 (by omega), readU8_ok G 23 (by omega), Except.ok.injEq] at hprotocol
  cases hvF
  cases hvG
  have hudp : decodeUdp F (14 + headerLength (ihlOf (fieldU8 F 14))) (F.length - 14 - headerLength (ihlOf (fieldU8 F 14)))
      = decodeUdp G (14 + headerLength (ihlOf (fieldU8 F 14))) (F.length - 14 - headerLength (ihlOf (fieldU8 F 14))) :=
    decodeUdp_congr hports hdata (by omega) (by omega)
  have hpath : dispatchPath idMac idIp F = dispatchPath idMac idIp G := by
    rw [dispatchPath_ipv4 h34 (fieldU16_of_hasEtherType (by omega) htypeF) rfl,
      dispatchPath_ipv4 (hlen ▸ h34) (fieldU16_of_hasEtherType (by omega) htypeG) rfl, ← hihl, ← hlen, ← hprotocol, hudp,
      fieldIp_congr haddresses (a := 26) (by decide) (by decide), fieldIp_congr haddresses (a := 30) (by decide) (by decide)]
  rw [loadIfb_eq_of_le F hmax, loadIfb_eq_of_le G (hlen ▸ hmax), processFrame, processFrame, hpath]

end Sys2Proof.Machine
end

section
/-! PROOFS of the statements about the four header decodes: O24 to O27. Each decode is short or long; where it is long, every field it
reads lies inside the frame, so its reads give the values of `Laws.Decode`. -/

namespace Sys2Proof

/-- Settles O24: the three fields of the header end at offset 14. -/
theorem decodeEthernetDropsRuntsOnly : Obligations.DecodeEthernetDropsRuntsOnly := by
  refine fun m => ⟨decodeEthernet_runt m, fun hlong => ?_⟩
  exact ⟨_, _, _, readMac_ok m 0 (by omega), readMac_ok m 6 (by omega), readU16_ok m 12 (by omega), decodeEthernet_ok m hlong⟩

/-- The format of a message inside the frame is supported iff the four reads give its values (R104). -/
theorem arpFormatAt_iff_reads {m : Ifb} {b : Nat} (hin : b + 6 ≤ m.length) :
    arpFormatAt m b = true ↔
      readU16 m b = .ok 1 ∧ readU16 m (b + 2) = .ok 0x0800 ∧ readU8 m (b + 4) = .ok 6 ∧ readU8 m (b + 5) = .ok 4 := by
  rw [readU16_ok m b (by omega), readU16_ok m (b + 2) (by omega), readU8_ok m (b + 4) (by omega), readU8_ok m (b + 5) (by omega)]
  simp [arpFormatAt, arpFormatSupported, and_assoc]

/-- Settles O25: a short message is dropped for its length; a long one by whether its format is supported. -/
theorem decodeArpDropsExactlyThese : Obligations.DecodeArpDropsExactlyThese := by
  intro m b n hbn
  rcases Nat.lt_or_ge n 28 with hshort | (hlong : 28 ≤ n)
  · rw [decodeArp_short m b n hshort]
    simp [hshort, Nat.not_le.mpr hshort]
  · have hdecode := decodeArp_long m b n hlong hbn.le
    have hreads := arpFormatAt_iff_reads (m := m) (b := b) (by omega)
    simp only [ne_eq, ← not_and_or, ← hreads]
    cases hformat : arpFormatAt m b with
    | false =>
      rw [hformat, if_neg Bool.false_ne_true] at hdecode
      simp [hdecode, hlong]
    | true =>
      rw [hformat, if_pos rfl] at hdecode
      simp [hdecode, hlong]

theorem ihlMalformed_iff (ihl : BitVec 4) : ihlMalformed ihl = true ↔ ihl.toNat < 5 := by
  rw [ihlMalformed, decide_eq_true_iff]

/-- Settles O26: with 20 bytes the header's fixed fields are inside the frame, and the checks decide in their order. -/
theorem decodeIpv4DropsExactlyThese : Obligations.DecodeIpv4DropsExactlyThese := by
  refine fun m b n hbn => ⟨decodeIpv4_short m b n, fun v hlong hv => ?_⟩
  have hdecode := decodeIpv4_long m b n hlong hbn.le
  rw [readU8_ok m b (by omega)] at hv
  cases hv
  rw [← headerLength, ← not_lt, ← ihlMalformed_iff]
  refine ⟨fun hihl => ?_, fun hihl htrunc => ?_, fun hihl hwhole => ?_⟩
  · rw [hdecode, if_pos hihl]
  · rw [hdecode, if_neg hihl, if_pos htrunc]
  · rw [if_neg hihl, if_neg hwhole.not_gt] at hdecode
    exact ⟨_, _, _, readU8_ok m (b + 9) (by omega), readIp_ok m (b + 12) (by omega), readIp_ok m (b + 16) (by omega), hdecode⟩

/-- With a UDP header there, the payload's length is the clamp itself: the clamp is not negative (R155). -/
theorem udpPayloadLength_eq_clamp (len : U16) {n : Nat} (h : 8 ≤ n) :
    (udpPayloadLength len n : Int) = clamp ((len.toNat : Int) - 8) 0 ((n : Int) - 8) := by
  refine Int.toNat_of_nonneg ?_
  simp only [clamp]
  omega

/-- Settles O27: the clamped payload is inside the frame, so it has the clamp's length. -/
theorem decodeUdpClampsItsPayload : Obligations.DecodeUdpClampsItsPayload := by
  intro m u n hun
  rcases Nat.lt_or_ge n 8 with hshort | hlong
  · exact ⟨iff_of_true (decodeUdp_short m u n hshort) hshort, fun hlong => absurd hshort hlong.not_gt⟩
  · have hdecode := decodeUdp_long m u n hlong hun.le
    refine ⟨iff_of_false (by simp [hdecode]) hlong.not_gt, fun _ => ?_⟩
    have hclamped := udpPayloadLength_eq (fieldU16 m (u + 4)) n hlong
    have hlength : ((m.drop (u + 8)).take (udpPayloadLength (fieldU16 m (u + 4)) n)).length
        = udpPayloadLength (fieldU16 m (u + 4)) n := by
      rw [List.length_take, List.length_drop]
      omega
    refine ⟨_, _, _, _, readU16_ok m u (by omega), readU16_ok m (u + 2) (by omega), readU16_ok m (u + 4) (by omega), ?_, ?_,
      hdecode⟩
    · rw [hlength]
    · rw [hlength, udpPayloadLength_eq_clamp _ hlong]

end Sys2Proof
end

section
/-! PROOFS of the statement about the reply as an ingress frame: O20. The bytes of the reply are those of an ARP frame with opcode 2,
so the decodes of any ARP frame give its fields, and it is of the class that is not a request. -/

namespace Sys2Proof

theorem fieldU16_cons_cons_zero (b0 b1 : Byte) (ys : List Byte) : fieldU16 (b0 :: b1 :: ys) 0 = b0 ++ b1 :=
  ofNat_beValue_two b0 b1

/-! ## The header decodes of an ARP frame that was written -/

section
variable (dst src : Mac) (etherType : U16)

theorem decodeEthernet_ethBytes_append {body : List Byte} {len : Nat} (hlen : body.length + 14 = len) :
    decodeEthernet (ethBytes dst src etherType ++ body) len = .ok ⟨dst, src, etherType, 14, len - 14⟩ := by
  have hlength : (ethBytes dst src etherType ++ body).length = len := by simp [← hlen, Nat.add_comm]
  rw [← hlength, decodeEthernet_ok _ (by simp)]
  simp

theorem decodeArp_arpBytes_append (opcode : U16) (sha : Mac) (spa : Ip) (tha : Mac) (tpa : Ip) {trailer : List Byte} {n : Nat}
    (hn : trailer.length + 28 = n) :
    decodeArp (ethBytes dst src etherType ++ (arpBytes opcode sha spa tha tpa ++ trailer)) 14 n
      = .ok ⟨1, 0x0800, 6, 4, opcode, sha, spa, tha, tpa⟩ := by
  have hbound : 14 + n ≤ (ethBytes dst src etherType ++ (arpBytes opcode sha spa tha tpa ++ trailer)).length := by
    simp [arpBytes]
    omega
  have hformat : arpFormatAt (arpBytes opcode sha spa tha tpa ++ trailer) 0 = true := rfl
  rw [decodeArp_long _ _ _ (by omega) hbound, arpFormatAt_ethBytes_append, if_pos hformat]
  simp [arpAt, arpBytes, fieldU16_cons_cons_zero]

end

/-! ## The reply is an ARP frame with opcode 2 -/

/-- The egress format of R95 is the layout of R90 and R91 with opcode 2 and 18 zero bytes behind it, so its bytes are an ingress
frame's too. -/
theorem encodeArpReply_eq_encode_arpNonreq (tm : Mac) (ti : Ip) (sm : Mac) (si : Ip) :
    encodeArpReply tm ti sm si = encode (.arpNonreq tm sm 2 sm si tm ti (List.replicate 18 0)) :=
  encodeArpReply_eq_encode tm ti sm si

/-- Settles O20: on each port the reply is the encoding of a well-formed instruction, and the header decodes give the fields it was
written from. -/
theorem replyDecodesBackAndIsIgnored : Obligations.ReplyDecodesBackAndIsIgnored := by
  intro idIp M1 M2 IP1 IP2
  have hreply := encodeArpReply_eq_encode_arpNonreq M1 IP1 M2 IP2
  have hbytes : encodeArpReply M1 IP1 M2 IP2
      = ethBytes M1 M2 0x0806 ++ (arpBytes 2 M2 IP2 M1 IP1 ++ List.replicate 18 0) :=
    hreply.trans (List.append_assoc ..)
  refine ⟨?ethernet, ?arp, ?ingress, ?egress, ?ignored⟩
  case ethernet => exact hbytes ▸ decodeEthernet_ethBytes_append M1 M2 0x0806 (by simp [arpBytes])
  case arp => exact hbytes ▸ decodeArp_arpBytes_append M1 M2 0x0806 2 M2 IP2 M1 IP1 (by simp)
  case ingress => exact decode_of_encode (i := .arpNonreq ..) hreply.symm rfl
  case egress => exact decode_of_encode (i := .txArpReply ..) (encodeArpReply_eq_encode M1 IP1 M2 IP2).symm rfl
  case ignored => exact fun s hready => (Machine.exec_eq_accept rfl).trans (Machine.accept_of_canAccept hready _ _)

end Sys2Proof
end

section
/-! PROOFS of the statements about the ARP responder: O6 and O29. What `handle` answers decides what a request's result holds, and both
request arms give that result. -/

namespace Sys2Proof

/-- Settles O29: the one condition of `handle` is the request's, and the intent it then gives is the stated one. -/
theorem handleAnswersRequestsForTheIdentity : Obligations.HandleAnswersRequestsForTheIdentity := by
  intro idMac idIp r it
  have hcond : (isRequest r.opcode && r.targetIp == idIp) = true ↔ r.opcode = 1 ∧ r.targetIp = idIp := by
    simp [isRequest]
  rw [handle, ← and_assoc, ← hcond]
  split_ifs with hanswered
  · simp [hanswered, eq_comm]
  · simp [hanswered]

namespace Machine

/-- The result of a request holds a reply exactly when `handle` gives an intent (R211). -/
theorem exists_tx_mem_requestResult_iff (idMac : Mac) (idIp : Ip) (arp : ArpMessage) :
    (∃ frame, .tx frame ∈ (requestResult idMac idIp arp).2) ↔ ∃ intent, handle idMac idIp arp = some intent := by
  unfold requestResult
  cases handle idMac idIp arp with
  | none => simp
  | some intent => simp

theorem exists_handle_requestMessage_iff (idMac : Mac) (idIp : Ip) (sha : Mac) (spa : Ip) (tha : Mac) (tpa : Ip) :
    (∃ intent, handle idMac idIp (requestMessage sha spa tha tpa) = some intent) ↔ tpa = idIp := by
  simp only [handleAnswersRequestsForTheIdentity idMac idIp (requestMessage sha spa tha tpa) _]
  simp [requestMessage]

/-- Settles O6: both arms are an accept step with the request's result, which replaces `PENDING`. -/
theorem requestArmsAnswerForTheIdentityOnly : Obligations.RequestArmsAnswerForTheIdentityOnly := by
  intro s dst src sha tha spa tpa trailer i hready hrequest
  have hresult : ingressResult s.idMac s.idIp i = some (requestResult s.idMac s.idIp (requestMessage sha spa tha tpa)) := by
    rcases hrequest with rfl | rfl <;> rfl
  refine ⟨_, (exec_eq_accept hresult).trans (accept_of_canAccept hready _ _), ?_⟩
  exact (exists_tx_mem_requestResult_iff ..).trans (exists_handle_requestMessage_iff ..)

end Machine
end Sys2Proof
end

section
/-! PROOFS of the statements about the accept step as a whole: O31, O32, O33, O37 and O39. The decoder gives `instrOf`, whose arm has
the result of ProcessFrame, so what holds of each arm's result holds of every frame. -/

namespace Sys2Proof.Machine

/-! ## An arm and ProcessFrame -/

/-- Settles O31: the arm is an accept step with the result that ProcessFrame gives. -/
theorem armsRefineProcessFrame : Obligations.ArmsRefineProcessFrame := by
  intro s F i _ hdecode
  rw [decode_ingress_eq] at hdecode
  cases hdecode
  obtain ⟨result, hresult, hprocess⟩ := processFrame_instrOf s.idMac s.idIp (loadIfb F)
  rw [exec_eq_accept hresult, acceptFrame, hprocess]

/-- The arm of an ingress instruction, where the accept step is enabled. -/
theorem exec_of_canAccept {i : Instr} {s : State} {disp : Disposition} {outs : List OutItem} (hready : CanAccept s)
    (hresult : ingressResult s.idMac s.idIp i = some (disp, outs)) :
    exec i s = .next { s with pending := outs, ingress := s.ingress.tail, trace := s.trace ++ [disp] } :=
  (exec_eq_accept hresult).trans (accept_of_canAccept hready _ _)

/-- Settles O37: both frames give one instruction, whose result is a function of it and the identity. -/
theorem outputsDependOnFrameAndIdentityOnly : Obligations.OutputsDependOnFrameAndIdentityOnly := by
  intro s t F G hs ht hmac hip hload
  obtain ⟨⟨disp, outs⟩, hresult, _⟩ := processFrame_instrOf s.idMac s.idIp (loadIfb F)
  refine ⟨instrOf s.idIp (loadIfb F), disp, outs, decode_ingress_eq _ _, ?_, exec_of_canAccept hs hresult,
    exec_of_canAccept ht (hmac ▸ hip ▸ hresult)⟩
  rw [decode_ingress_eq, ← hip, ← hload]

/-! ## The result of an arm -/

theorem requestResult_matched (idMac : Mac) (idIp : Ip) (sha : Mac) (spa : Ip) (tha : Mac) :
    requestResult idMac idIp (requestMessage sha spa tha idIp)
      = (.arpReplied,
          [ .ev (.arpRequestObserved (requestMessage sha spa tha idIp))
          , .tx (encodeIntent ⟨sha, spa, idMac, idIp⟩)
          , .ev (.arpReplySent ⟨sha, spa, idMac, idIp⟩) ]) := by
  have hanswer : handle idMac idIp (requestMessage sha spa tha idIp) = some ⟨sha, spa, idMac, idIp⟩ :=
    (handleAnswersRequestsForTheIdentity ..).mpr ⟨rfl, rfl, rfl⟩
  rw [requestResult, hanswer]

theorem requestResult_other (idMac : Mac) {idIp tpa : Ip} (hother : tpa ≠ idIp) (sha : Mac) (spa : Ip) (tha : Mac) :
    requestResult idMac idIp (requestMessage sha spa tha tpa)
      = (.arpRequestNoMatch, [.ev (.arpRequestObserved (requestMessage sha spa tha tpa))]) := by
  have hsilent : handle idMac idIp (requestMessage sha spa tha tpa) = none := by
    rw [Option.eq_none_iff_forall_ne_some]
    exact fun intent hanswer => hother ((exists_handle_requestMessage_iff ..).mp ⟨intent, hanswer⟩)
  rw [requestResult, hsilent]

/-- The disposition of a well-formed instruction is that of its class (R99, R272). -/
theorem disposition_of_frameClass {idMac : Mac} {idIp : Ip} {i : Instr} {c : FrameClass} {result : Disposition × List OutItem}
    (hwf : i.wf idIp = true) (hclass : i.frameClass = some c) (hresult : ingressResult idMac idIp i = some result) :
    result.1 = classDisposition c := by
  cases i with
  | arpReqMatch dst src sha spa tha tpa trailer =>
    simp only [Instr.wf, Bool.and_eq_true, beq_iff_eq] at hwf
    obtain ⟨rfl, _⟩ := hwf
    cases hclass
    cases hresult
    rw [requestResult_matched, classDisposition]
  | arpReqOther dst src sha spa tha tpa trailer =>
    simp only [Instr.wf, Bool.and_eq_true, bne_iff_ne] at hwf
    obtain ⟨hother, _⟩ := hwf
    cases hclass
    cases hresult
    rw [requestResult_other idMac hother, classDisposition]
  | txArpReply => cases hclass
  | ethRunt | arpShort | arpBadfmt | arpNonreq | ipv4Short | ipv4Badihl | ipv4Trunc | ipv4Nonudp | udpShort | ipv4Udp
  | ethOther =>
    cases hclass
    cases hresult
    rfl

/-- The bounds of R213: a reply comes with its two events, and every other disposition with at most one event. -/
def BoundedOutputs (disp : Disposition) (outs : List OutItem) : Prop :=
  (disp = .arpReplied → ∃ arp intent, outs = [.ev (.arpRequestObserved arp), .tx (encodeIntent intent), .ev (.arpReplySent intent)])
    ∧ (disp ≠ .arpReplied → outs.length ≤ 1 ∧ ∀ frame, .tx frame ∉ outs)

theorem boundedOutputs_of_ne {disp : Disposition} {outs : List OutItem} (hdisp : disp ≠ .arpReplied)
    (houts : outs.length ≤ 1 ∧ ∀ frame, .tx frame ∉ outs) : BoundedOutputs disp outs :=
  ⟨fun hreplied => absurd hreplied hdisp, fun _ => houts⟩

theorem dropOutputs_bounds (report : Bool) (code : Disposition) :
    (dropOutputs report code).length ≤ 1 ∧ ∀ frame, .tx frame ∉ dropOutputs report code := by
  unfold dropOutputs
  split_ifs <;> simp

theorem boundedOutputs_ingressResult {idMac : Mac} {idIp : Ip} {i : Instr} {result : Disposition × List OutItem}
    (hresult : ingressResult idMac idIp i = some result) : BoundedOutputs result.1 result.2 := by
  have request : ∀ sha spa tha tpa, BoundedOutputs (requestResult idMac idIp (requestMessage sha spa tha tpa)).1
      (requestResult idMac idIp (requestMessage sha spa tha tpa)).2 := by
    intro sha spa tha tpa
    by_cases htarget : tpa = idIp
    · subst htarget
      rw [requestResult_matched]
      exact ⟨fun _ => ⟨_, _, rfl⟩, fun hdisp => absurd rfl hdisp⟩
    · rw [requestResult_other idMac htarget]
      exact boundedOutputs_of_ne nofun (by simp)
  cases i with
  | arpReqMatch | arpReqOther =>
    cases hresult
    exact request _ _ _ _
  | arpNonreq | ipv4Nonudp | ipv4Udp | ethOther =>
    cases hresult
    exact boundedOutputs_of_ne nofun (by simp)
  | txArpReply => cases hresult
  | ethRunt | arpShort | arpBadfmt | ipv4Short | ipv4Badihl | ipv4Trunc | udpShort =>
    cases hresult
    dsimp only
    exact boundedOutputs_of_ne nofun (dropOutputs_bounds _ _)

/-! ## ProcessFrame, whatever is reported -/

/-- ProcessFrame's path ends in a drop or in a result, and only the outputs of a drop depend on `P_REPORT_MALFORMED` (R212). -/
theorem dispatchPath_of_processFrame {report : Bool} {idMac : Mac} {idIp : Ip} {m : Ifb}
    {result : Disposition × List OutItem} (h : processFrame report idMac idIp m = .ok result) :
    dispatchPath idMac idIp m = .ok result
      ∨ (dispatchPath idMac idIp m = .error (.drop result.1) ∧ result.2 = dropOutputs report result.1) := by
  unfold processFrame at h
  split at h
  case h_1 code hdrop =>
    cases h
    exact .inr ⟨hdrop, rfl⟩
  case h_2 => cases h
  case h_3 hok =>
    cases h
    exact .inl hok

/-- The other value of `P_REPORT_MALFORMED` changes at most the outputs, and then to those of a drop (R212). -/
theorem processFrame_of_report {report : Bool} {idMac : Mac} {idIp : Ip} {m : Ifb} {result : Disposition × List OutItem}
    (h : processFrame report idMac idIp m = .ok result) (report' : Bool) :
    processFrame report' idMac idIp m = .ok result
      ∨ (processFrame report' idMac idIp m = .ok (result.1, dropOutputs report' result.1)
        ∧ result.2 = dropOutputs report result.1) := by
  rcases dispatchPath_of_processFrame h with hok | ⟨hdrop, houts⟩
  · exact .inl (processFrame_of_ok hok)
  · exact .inr ⟨processFrame_of_drop hdrop, houts⟩

/-- Settles O32: the class of the table is the instruction's, and the disposition of its arm that of the class. -/
theorem processFrameIsTotal : Obligations.ProcessFrameIsTotal := by
  intro report idMac idIp F
  obtain ⟨⟨disp, outs⟩, hresult, hprocess⟩ := processFrame_instrOf idMac idIp (loadIfb F)
  obtain ⟨c, hclass⟩ := exists_frameClass_of_ingress (instrOf_port idIp (loadIfb F))
  obtain rfl : disp = classDisposition c := disposition_of_frameClass (instrOf_wf idIp (loadIfb_wf F)) hclass hresult
  have htable := (classify_eq_frameClass idIp (loadIfb F)).trans hclass
  rcases processFrame_of_report hprocess report with hsame | ⟨hdropped, _⟩
  · exact ⟨c, _, htable, hsame⟩
  · exact ⟨c, _, htable, hdropped⟩

/-- Settles O33: the arm's result is within the bounds, and a drop's outputs are under either value of `P_REPORT_MALFORMED`. -/
theorem outputsAreBounded : Obligations.OutputsAreBounded := by
  intro report idMac idIp F d outs h
  obtain ⟨result, hresult, hprocess⟩ := processFrame_instrOf idMac idIp (loadIfb F)
  have hbounds := boundedOutputs_ingressResult hresult
  rcases processFrame_of_report hprocess report with hsame | ⟨hdropped, houts⟩
  · cases h.symm.trans hsame
    exact hbounds
  · cases h.symm.trans hdropped
    refine boundedOutputs_of_ne (fun hreplied => ?_) (dropOutputs_bounds report result.1)
    obtain ⟨arp, intent, hthree⟩ := hbounds.1 hreplied
    have hone := (dropOutputs_bounds Config.reportMalformed result.1).1
    rw [← houts, hthree] at hone
    simp at hone

/-! ## Holds -/

theorem accept_of_not_canAccept {s : State} (hfault : s.modelFault = none) (h : ¬ CanAccept s) (disp : Disposition)
    (outs : List OutItem) : accept disp outs s = .next s := by
  rw [accept, guarded_of_none hfault, if_neg (mt (acceptEnabled_iff s).mp h)]

/-- Without a model fault, `CanEmit` asks no more than the check of the emit step. -/
theorem emitEnabled_iff_canEmit {s : State} (hfault : s.modelFault = none) (item : OutItem) :
    s.emitEnabled item = true ↔ CanEmit s item := by
  obtain ⟨_, hlength, hreserved⟩ := (modelFault_eq_none_iff s).mp hfault
  simp [emitEnabled_iff, CanEmit, hlength, hreserved]

theorem emitItem_of_not_canEmit {s : State} {item : OutItem} (hfault : s.modelFault = none) (h : ¬ CanEmit s item) :
    emitItem item s = .next s := by
  rw [emitItem, guarded_of_none hfault, if_neg (mt (emitEnabled_iff_canEmit hfault item).mp h)]

/-- Settles O39: an ingress arm is an accept step and the egress one an emit step, and both hold where they are not enabled. -/
theorem disabledInstructionsHold : Obligations.DisabledInstructionsHold := by
  refine fun s hfault => ⟨fun i hport hready => ?_, fun tm sm ti si hready => ?_⟩
  · rcases ingressResult_or_reply s.idMac s.idIp i with ⟨_, result, hresult⟩ | ⟨hegress, _⟩
    · rw [exec_eq_accept hresult, accept_of_not_canAccept hfault hready]
    · cases hport.symm.trans hegress
  · rw [exec_txArpReply, emitItem_of_not_canEmit hfault hready]

end Sys2Proof.Machine
end

section
/-! PROOFS of the statements about the thirteen dispatch arms: O1 to O5 and O7 to O14. The conditions of a class, stated of what the
readers give, are conditions on the fields of `Laws.Buffers`; they choose the branch of `instrOf`. The arm is then an accept step with
its result. -/

namespace Sys2Proof

/-! ## A read that succeeds is the field's value -/

theorem memRead_eq_ok_iff {w : Nat} {m : Ifb} {a n : Nat} {v : BitVec w} :
    memRead w m a n = .ok v ↔ a + n ≤ m.length ∧ BitVec.ofNat w (beValue ((m.drop a).take n)) = v := by
  by_cases hin : a + n ≤ m.length
  · simp [memRead_ok w m a n hin, hin]
  · simp [memRead_violation w m a n (Nat.lt_of_not_le hin), hin]

theorem readU8_eq_ok_iff {m : Ifb} {a : Nat} {v : U8} : readU8 m a = .ok v ↔ a + 1 ≤ m.length ∧ fieldU8 m a = v :=
  memRead_eq_ok_iff

theorem readU16_eq_ok_iff {m : Ifb} {a : Nat} {v : U16} : readU16 m a = .ok v ↔ a + 2 ≤ m.length ∧ fieldU16 m a = v :=
  memRead_eq_ok_iff

theorem readIp_eq_ok_iff {m : Ifb} {a : Nat} {v : Ip} : readIp m a = .ok v ↔ a + 4 ≤ m.length ∧ fieldIp m a = v :=
  memRead_eq_ok_iff

theorem readMac_eq_ok_iff {m : Ifb} {a : Nat} {v : Mac} : readMac m a = .ok v ↔ a + 6 ≤ m.length ∧ fieldMac m a = v :=
  memRead_eq_ok_iff

/-- A frame that does not fill `IFB` is kept whole (R61). -/
theorem loadIfb_eq_of_lt {F : List Byte} (h : (loadIfb F).length < 2048) : loadIfb F = F := by
  refine loadIfb_eq_of_le F ?_
  simp only [loadIfb, Config.maxFrame, List.length_take] at h ⊢
  omega

namespace Machine

/-! ## The classes of R99, by the fields of the frame -/

section
variable {m : Ifb}

theorem hasEtherType_iff {e : U16} : HasEtherType m e ↔ 14 ≤ m.length ∧ fieldU16 m 12 = e :=
  readU16_eq_ok_iff

/-- The fields of a frame of valid ARP format with this opcode. -/
theorem ArpFormatValid.fields {opcode : U16} (h : ArpFormatValid m opcode) :
    HasEtherType m etherArp ∧ 42 ≤ m.length ∧ arpFormatAt m 14 = true ∧ fieldU16 m 20 = opcode := by
  obtain ⟨htype, hlen, hhwType, hprotoType, hhwLen, hprotoLen, hopcode⟩ := h
  exact ⟨htype, hlen, (arpFormatAt_iff_reads (by omega)).mpr ⟨hhwType, hprotoType, hhwLen, hprotoLen⟩,
    (readU16_eq_ok_iff.mp hopcode).2⟩

/-- The fields of a valid IPv4 frame with this first header byte and protocol. -/
theorem Ipv4Valid.fields {b protocol : U8} (h : Ipv4Valid m b protocol) :
    HasEtherType m etherIpv4 ∧ 34 ≤ m.length ∧ fieldU8 m 14 = b ∧ ¬ ihlMalformed (ihlOf b) = true
      ∧ ¬ m.length < 14 + headerLength (ihlOf b) ∧ fieldU8 m 23 = protocol := by
  obtain ⟨htype, hlen, hbyte, hihl, hwhole, hprotocol⟩ := h
  exact ⟨htype, hlen, (readU8_eq_ok_iff.mp hbyte).2, mt (ihlMalformed_iff _).mp hihl.not_gt, hwhole.not_gt,
    (readU8_eq_ok_iff.mp hprotocol).2⟩

theorem decode_of_arp {F : List Byte} (idIp : Ip) (h : HasEtherType (loadIfb F) etherArp) :
    decode idIp .ingress F = .ok (arpInstrOf idIp (loadIfb F)) := by
  obtain ⟨hlen, htype⟩ := hasEtherType_iff.mp h
  rw [decode_ingress_eq, instrOf, if_neg hlen.not_gt, if_pos (by rw [htype]; rfl)]

theorem decode_of_ipv4 {F : List Byte} (idIp : Ip) (h : HasEtherType (loadIfb F) etherIpv4) :
    decode idIp .ingress F = .ok (ipv4InstrOf (loadIfb F)) := by
  obtain ⟨hlen, htype⟩ := hasEtherType_iff.mp h
  rw [decode_ingress_eq, instrOf, if_neg hlen.not_gt, if_neg (by rw [htype]; decide), if_pos (by rw [htype]; rfl)]

end

/-! ## What a drop's arm answers -/

theorem dropOutputs_of_pastEth (report : Bool) {code : Disposition} (hcode : code ≠ .malformedEth) :
    dropOutputs report code = if report then [.ev (.decodeError (dispositionCode code))] else [] := by
  simp [dropOutputs, hcode]

/-- The arm of a frame dropped past the Ethernet stage, where the accept step is enabled (R212, R256). -/
theorem exec_of_dropped {i : Instr} {s : State} (code : Disposition) (hcode : code ≠ .malformedEth) (hready : CanAccept s)
    (hresult : ingressResult s.idMac s.idIp i = some (code, dropOutputs Config.reportMalformed code)) :
    exec i s = .next { s with
      pending := if Config.reportMalformed then [.ev (.decodeError (dispositionCode code))] else []
      ingress := s.ingress.tail
      trace := s.trace ++ [code] } := by
  rw [exec_of_canAccept hready hresult, dropOutputs_of_pastEth _ hcode]

/-! ## The Ethernet classes -/

/-- Settles O1: a runt is decoded before any header, and its drop is never reported. -/
theorem ethRuntIsDroppedSilently : Obligations.EthRuntIsDroppedSilently := by
  refine ⟨fun idIp F hrunt => ⟨decodeEthernet_runt _ hrunt, ?_⟩, fun s bytes hready => exec_of_canAccept hready rfl⟩
  rw [decode_ingress_eq, instrOf, if_pos hrunt, loadIfb_eq_of_lt (by omega)]

/-- Settles O14: both tests of the `etherType` fail. -/
theorem otherEtherTypeIsIgnored : Obligations.OtherEtherTypeIsIgnored := by
  refine ⟨fun idIp F e hlen htype harp hipv4 => ?_, fun s dst src e payload hready => exec_of_canAccept hready rfl⟩
  obtain ⟨_, rfl⟩ := hasEtherType_iff.mp htype
  have hdecode := decode_ingress_eq idIp F
  rw [instrOf, if_neg hlen.not_gt, if_neg (by simpa [etherArp] using harp), if_neg (by simpa [etherIpv4] using hipv4)] at hdecode
  exact ⟨_, _, hdecode⟩

/-! ## The ARP classes -/

/-- Settles O2: the first branch of an ARP frame. -/
theorem arpShortIsDropped : Obligations.ArpShortIsDropped := by
  refine ⟨fun idIp F htype hshort => ?_, fun s dst src body hready => exec_of_dropped .malformedArpShort nofun hready rfl⟩
  have hkept : loadIfb F = F := loadIfb_eq_of_lt (by omega)
  have hdecode := decode_of_arp idIp htype
  rw [hkept] at hdecode hshort ⊢
  rw [arpInstrOf, if_pos hshort] at hdecode
  exact ⟨decodeArp_short _ _ _ (by omega), _, _, hdecode⟩

/-- Settles O3: the four fields read are those whose format `decodeArp` and the decoder check. -/
theorem arpBadFormatIsDropped : Obligations.ArpBadFormatIsDropped := by
  refine ⟨fun idIp F hwType protoType hwLen protoLen htype hlen hhwType hprotoType hhwLen hprotoLen hbad => ?_,
    fun s dst src hwType protoType hwLen protoLen rest hready => exec_of_dropped .malformedArpFormat nofun hready rfl⟩
  have hformat : ¬ arpFormatAt (loadIfb F) 14 = true := by
    rw [arpFormatAt_iff_reads (by omega), hhwType, hprotoType, hhwLen, hprotoLen]
    simpa using hbad
  have hdrop := decodeArp_long (loadIfb F) 14 ((loadIfb F).length - 14) (by omega) (by omega)
  rw [if_neg hformat] at hdrop
  have hdecode := decode_of_arp idIp htype
  rw [arpInstrOf, if_neg hlen.not_gt, if_pos (by simpa using hformat), (readU16_eq_ok_iff.mp hhwType).2,
    (readU16_eq_ok_iff.mp hprotoType).2, (readU8_eq_ok_iff.mp hhwLen).2, (readU8_eq_ok_iff.mp hprotoLen).2] at hdecode
  exact ⟨hdrop, _, _, hdecode⟩

/-- Settles O7: a frame of valid format whose opcode is not a request's. -/
theorem arpNonRequestIsIgnored : Obligations.ArpNonRequestIsIgnored := by
  refine ⟨fun idIp F opcode hvalid hopcode => ?_,
    fun s dst src opcode sha tha spa tpa trailer hready => exec_of_canAccept hready rfl⟩
  obtain ⟨htype, hlen, hformat, rfl⟩ := hvalid.fields
  have hdecode := decode_of_arp idIp htype
  rw [arpInstrOf, if_neg hlen.not_gt, if_neg (by simp [hformat]), if_pos (by simpa [isRequest] using hopcode)] at hdecode
  exact ⟨_, _, _, _, _, _, hdecode⟩

/-- A request is answered or not by its target alone (R99, priorities 4 and 5). -/
theorem decode_of_arpRequest {F : List Byte} (idIp : Ip) (h : ArpFormatValid (loadIfb F) 1) {sha tha : Mac} {spa tpa : Ip}
    (hsha : readMac (loadIfb F) 22 = .ok sha) (hspa : readIp (loadIfb F) 28 = .ok spa)
    (htha : readMac (loadIfb F) 32 = .ok tha) (htpa : readIp (loadIfb F) 38 = .ok tpa) :
    ∃ dst src, decode idIp .ingress F = .ok
      (if tpa == idIp then .arpReqMatch dst src sha spa tha tpa ((loadIfb F).drop 42)
        else .arpReqOther dst src sha spa tha tpa ((loadIfb F).drop 42)) := by
  obtain ⟨htype, hlen, hformat, hopcode⟩ := h.fields
  have hdecode := decode_of_arp idIp htype
  rw [arpInstrOf, if_neg hlen.not_gt, if_neg (by simp [hformat]), if_neg (by simp [isRequest, hopcode]),
    (readMac_eq_ok_iff.mp hsha).2, (readIp_eq_ok_iff.mp hspa).2, (readMac_eq_ok_iff.mp htha).2,
    (readIp_eq_ok_iff.mp htpa).2] at hdecode
  exact ⟨_, _, hdecode⟩

/-- Settles O4: a request whose target is the identity, which `handle` answers. -/
theorem matchedArpRequestIsAnswered : Obligations.MatchedArpRequestIsAnswered := by
  refine ⟨fun idIp F sha tha spa hvalid hsha hspa htha htpa => ?_, fun s dst src sha tha spa trailer hready => ?_⟩
  · simpa using decode_of_arpRequest idIp hvalid hsha hspa htha htpa
  · exact exec_of_canAccept hready (congrArg some (requestResult_matched s.idMac s.idIp sha spa tha))

/-- Settles O5: a request whose target is not the identity, which `handle` leaves unanswered. -/
theorem otherArpRequestIsObservedOnly : Obligations.OtherArpRequestIsObservedOnly := by
  refine ⟨fun idIp F sha tha spa tpa hvalid hsha hspa htha htpa hother => ?_,
    fun s dst src sha tha spa tpa trailer hready hother => ?_⟩
  · simpa [hother] using decode_of_arpRequest idIp hvalid hsha hspa htha htpa
  · exact exec_of_canAccept hready (congrArg some (requestResult_other s.idMac hother sha spa tha))

/-! ## The IPv4 classes -/

/-- Settles O8: the first branch of an IPv4 frame. -/
theorem ipv4ShortIsDropped : Obligations.Ipv4ShortIsDropped := by
  refine ⟨fun idIp F htype hshort => ?_, fun s dst src body hready => exec_of_dropped .malformedIpv4Short nofun hready rfl⟩
  have hkept : loadIfb F = F := loadIfb_eq_of_lt (by omega)
  have hdecode := decode_of_ipv4 idIp htype
  rw [hkept] at hdecode hshort ⊢
  rw [ipv4InstrOf, if_pos hshort] at hdecode
  exact ⟨decodeIpv4_short _ _ _ (by omega), _, _, hdecode⟩

/-- Settles O9: the nibble is the IHL that `decodeIpv4` and the decoder check. -/
theorem ipv4BadIhlIsDropped : Obligations.Ipv4BadIhlIsDropped := by
  refine ⟨fun idIp F b htype hlen hbyte hbad => ?_,
    fun s dst src version ihl rest hready => exec_of_dropped .malformedIpv4Ihl nofun hready rfl⟩
  have hihl := (ihlMalformed_iff _).mpr hbad
  obtain ⟨_, rfl⟩ := readU8_eq_ok_iff.mp hbyte
  have hdrop := decodeIpv4_long (loadIfb F) 14 ((loadIfb F).length - 14) (by omega) (by omega)
  rw [if_pos hihl] at hdrop
  have hdecode := decode_of_ipv4 idIp htype
  rw [ipv4InstrOf, if_neg hlen.not_gt, if_pos hihl] at hdecode
  exact ⟨hdrop, _, _, hdecode⟩

/-- Settles O10: the header the IHL gives does not end inside the frame. -/
theorem ipv4TruncatedIsDropped : Obligations.Ipv4TruncatedIsDropped := by
  refine ⟨fun idIp F b htype hlen hbyte hgood htrunc => ?_,
    fun s dst src version ihl rest hready => exec_of_dropped .malformedIpv4Trunc nofun hready rfl⟩
  have hihl := mt (ihlMalformed_iff _).mp hgood.not_gt
  rw [← headerLength] at htrunc
  obtain ⟨_, rfl⟩ := readU8_eq_ok_iff.mp hbyte
  have hdrop := decodeIpv4_long (loadIfb F) 14 ((loadIfb F).length - 14) (by omega) (by omega)
  rw [if_neg hihl, if_pos (by omega)] at hdrop
  have hdecode := decode_of_ipv4 idIp htype
  rw [ipv4InstrOf, if_neg hlen.not_gt, if_neg hihl, if_pos htrunc] at hdecode
  exact ⟨hdrop, _, _, hdecode⟩

/-- Settles O11: a valid IPv4 frame whose protocol is not UDP's. -/
theorem ipv4NonUdpIsIgnored : Obligations.Ipv4NonUdpIsIgnored := by
  refine ⟨fun idIp F b protocol hvalid hother => ?_, fun s dst src ip payload hready => exec_of_canAccept hready rfl⟩
  obtain ⟨htype, hlen, rfl, hihl, hwhole, rfl⟩ := hvalid.fields
  have hdecode := decode_of_ipv4 idIp htype
  rw [ipv4InstrOf, if_neg hlen.not_gt, if_neg hihl, if_neg hwhole, if_pos (by simpa [isUdp] using hother)] at hdecode
  exact ⟨_, _, _, hdecode, rfl⟩

/-- Settles O12: the frame ends before the UDP header does. -/
theorem udpShortIsDropped : Obligations.UdpShortIsDropped := by
  refine ⟨fun idIp F b hvalid hshort => ?_,
    fun s dst src ip payload hready => exec_of_dropped .malformedUdpShort nofun hready rfl⟩
  obtain ⟨htype, hlen, rfl, hihl, hwhole, hudp⟩ := hvalid.fields
  have hdecode := decode_of_ipv4 idIp htype
  rw [← headerLength] at hshort ⊢
  rw [ipv4InstrOf, if_neg hlen.not_gt, if_neg hihl, if_neg hwhole, if_neg (by simp [isUdp, hudp]), if_pos (by omega)]
    at hdecode
  exact ⟨decodeUdp_short _ _ _ hshort, _, _, _, hdecode⟩

/-- The clamp leaves the arm as many bytes as `take` would of the length field (R155). -/
theorem udpPayload_eq_take (udp : UdpFields) (data : List Byte) : udpPayload udp data = data.take (udp.length.toNat - 8) := by
  rw [udpPayload, udpPayloadLength_eq _ _ (by omega), List.take_eq_take_iff]
  omega

/-- Settles O13: the last branch of an IPv4 frame, with the fields of both headers. -/
theorem udpDatagramIsReported : Obligations.UdpDatagramIsReported := by
  refine ⟨fun idIp F b srcIp dstIp srcPort dstPort length hvalid hlong hsrcIp hdstIp hsrcPort hdstPort hlength => ?_,
    fun s dst src ip udp data hready => ?_⟩
  · obtain ⟨htype, hlen, rfl, hihl, hwhole, hudp⟩ := hvalid.fields
    have hdecode := decode_of_ipv4 idIp htype
    rw [← headerLength] at hlong hsrcPort hdstPort hlength ⊢
    rw [ipv4InstrOf, if_neg hlen.not_gt, if_neg hihl, if_neg hwhole, if_neg (by simp [isUdp, hudp]), if_neg (by omega)]
      at hdecode
    exact ⟨_, _, _, _, hdecode, (readIp_eq_ok_iff.mp hsrcIp).2, (readIp_eq_ok_iff.mp hdstIp).2,
      (readU16_eq_ok_iff.mp hsrcPort).2, (readU16_eq_ok_iff.mp hdstPort).2, (readU16_eq_ok_iff.mp hlength).2⟩
  · rw [← udpPayload_eq_take]
    exact exec_of_canAccept hready rfl

end Machine
end Sys2Proof
end

section
/-! PROOFS of the statements about one step of the NFB and the runs it makes: O15, O41, O42, O43 and O49. The head of `PENDING` leaves
by the emit step and the oldest frame is taken by the accept step, each run as its decoded instruction; a STOP is a free choice. -/

namespace Sys2Proof.Machine

/-! ## The emit step's next state -/

/-- The update of the emit step, with its conditions as propositions (R214, R317). -/
theorem pop_eq (s : State) (item : OutItem) :
    s.pop item = { s with
      pending := s.pending.tail
      observed := s.observed ++ [item]
      runState := if s.runState = runStopping ∧ s.pending.tail = [] then runStopped else s.runState } := by
  simp [State.pop]

/-- What is left of a `PENDING` without a model fault has none. -/
theorem pop_modelFault {s : State} (hfault : s.modelFault = none) (item : OutItem) : (s.pop item).modelFault = none := by
  obtain ⟨hlegal, hlength, hreserved⟩ := (modelFault_eq_none_iff s).mp hfault
  refine (modelFault_eq_none_iff _).mpr ⟨?legal, ?length, ?reserved⟩
  case legal =>
    rcases pop_runState_cases s item with ⟨_, hstate⟩ | ⟨_, hstate⟩ <;> rw [hstate]
    · decide
    · exact hlegal
  case length =>
    rw [State.pop_pending, List.length_tail]
    omega
  case reserved =>
    rw [List.any_eq_false] at hreserved ⊢
    exact fun x hx => hreserved x (List.mem_of_mem_tail hx)

/-- Settles O15: the egress arm is the emit step of the reply. -/
theorem replyFrameLeaves : Obligations.ReplyFrameLeaves := by
  intro s tm sm ti si hready
  rw [exec_txArpReply, emitItem_of_canEmit hready, pop_eq]

/-! ## The NFB's turn -/

section
variable {s : State}

/-- The accept step runs the decoded instruction of the oldest frame. -/
theorem workTurn_of_canAccept {frame : List Byte} {rest : List (List Byte)} {i : Instr} (hready : CanAccept s)
    (hframe : s.ingress = frame :: rest) (hdecode : decode s.idIp .ingress frame = .ok i) : workTurn s = .run i s := by
  have hidle : s.headReady = false := by
    obtain ⟨_, _, hempty, _⟩ := hready
    rw [State.headReady, hempty]
  rw [workTurn, if_neg (by simp [hidle]), if_pos ((acceptEnabled_iff s).mpr hready), acceptTurn, hframe]
  simp only [hdecode]

theorem emitEnabled_of_canEmit {item : OutItem} (hready : CanEmit s item) : s.emitEnabled item = true :=
  (emitEnabled_iff_canEmit hready.modelFault item).mpr hready

theorem headReady_of_canEmit {item : OutItem} (hready : CanEmit s item) : s.headReady = true := by
  have henabled := emitEnabled_of_canEmit hready
  rw [State.headReady, pending_of_emitEnabled henabled]
  exact henabled

/-- The emit step runs the decoded instruction of the reply at the head. -/
theorem workTurn_of_canEmit_tx {frame : List Byte} {i : Instr} (hready : CanEmit s (.tx frame))
    (hdecode : decode s.idIp .egress frame = .ok i) : workTurn s = .run i s := by
  rw [workTurn, if_pos (headReady_of_canEmit hready), emitTurn, pending_of_emitEnabled (emitEnabled_of_canEmit hready)]
  simp only [hdecode]

theorem stopEnabled_eq_false (h : s.stopLevel = false ∨ s.runState = runStopping) : s.stopEnabled = false := by
  rcases h with h | h <;> simp [State.stopEnabled, h, runStopping, runRunning]

theorem stopEnabled_eq_true (hreset : s.resetLevel = false) (hstop : s.stopLevel = true) (hrun : s.runState = runRunning) :
    s.stopEnabled = true := by
  simp [State.stopEnabled, hreset, hstop, hrun]

/-- Where another step is enabled too, a STOP is taken before or after it (R276). -/
theorem nfbStep_of_stopEnabled (hstop : s.stopEnabled = true) (hbusy : (s.headReady || s.acceptEnabled) = true) :
    nfbStep s = if Config.stopFirst s.draws then .next s.draw.seeStop else runTurn s (workTurn s.draw) := by
  rw [nfbStep, nfbTurn, if_pos hstop, if_pos hbusy]
  split_ifs <;> rfl

/-- The accept step's turn, with STOP deasserted and asserted. -/
theorem nfbStep_runs_offered {frame : List Byte} {rest : List (List Byte)} {i : Instr} (hready : CanAccept s)
    (hframe : s.ingress = frame :: rest) (hdecode : decode s.idIp .ingress frame = .ok i) :
    (s.stopLevel = false → nfbStep s = exec i s)
    ∧ (s.stopLevel = true → nfbStep s =
        if Config.stopFirst s.draws then .next { s with draws := s.draws + 1, runState := runStopped } else exec i s.draw) := by
  refine ⟨fun hstop => ?_, fun hstop => ?_⟩
  · rw [nfbStep_of_not_stopEnabled (stopEnabled_eq_false (.inl hstop)), workTurn_of_canAccept hready hframe hdecode, runTurn]
  · have hbusy : (s.headReady || s.acceptEnabled) = true := by simp [(acceptEnabled_iff s).mpr hready]
    have hwork : workTurn s.draw = .run i s.draw := workTurn_of_canAccept hready hframe hdecode
    obtain ⟨hreset, hrun, hempty, _⟩ := hready
    rw [nfbStep_of_stopEnabled (stopEnabled_eq_true hreset hstop hrun) hbusy, hwork, runTurn]
    simp [State.seeStop, State.draw, hempty]

/-- The emit step's turn for a reply, with STOP deasserted or already seen, and asserted and not yet seen. -/
theorem nfbStep_runs_reply {frame : List Byte} {i : Instr} (hready : CanEmit s (.tx frame))
    (hdecode : decode s.idIp .egress frame = .ok i) :
    (s.stopLevel = false ∨ s.runState = runStopping → nfbStep s = exec i s)
    ∧ (s.stopLevel = true → s.runState = runRunning → nfbStep s =
        if Config.stopFirst s.draws then .next { s with draws := s.draws + 1, runState := runStopping } else exec i s.draw) := by
  refine ⟨fun hstop => ?_, fun hstop hrun => ?_⟩
  · rw [nfbStep_of_not_stopEnabled (stopEnabled_eq_false hstop), workTurn_of_canEmit_tx hready hdecode, runTurn]
  · have hbusy : (s.headReady || s.acceptEnabled) = true := by simp [headReady_of_canEmit hready]
    have hwork : workTurn s.draw = .run i s.draw := workTurn_of_canEmit_tx hready hdecode
    have hpending := pending_of_emitEnabled (emitEnabled_of_canEmit hready)
    obtain ⟨hreset, _⟩ := hready
    rw [nfbStep_of_stopEnabled (stopEnabled_eq_true hreset hstop hrun) hbusy, hwork, runTurn]
    rw [State.seeStop, State.draw_pending, hpending]
    rfl

end

/-! ## Steps -/

/-- Settles O41: where it is the NFB's turn, the step is its turn, which the host's script does not enter. -/
theorem stepRunsTheOfferedFrame : Obligations.StepRunsTheOfferedFrame := by
  intro s s' F rest i hturn hready hframe hdecode
  rw [step_of_nfbState hready.modelFault hturn]
  obtain ⟨script, rfl⟩ := exists_host_of_nfbState hturn
  exact nfbStep_runs_offered (s := { s with host := script }) hready hframe hdecode

/-- Settles O42: the same of a reply at the head of `PENDING`. -/
theorem stepRunsTheReplyAtTheHead : Obligations.StepRunsTheReplyAtTheHead := by
  intro s s' frame i hturn hready hdecode
  rw [step_of_nfbState hready.modelFault hturn]
  obtain ⟨script, rfl⟩ := exists_host_of_nfbState hturn
  exact nfbStep_runs_reply (s := { s with host := script }) hready hdecode

/-- Settles O43: whatever the head is, the turn is its emit step. -/
theorem headItemLeavesInOrder : Obligations.HeadItemLeavesInOrder := by
  intro s s' item hturn hready hstop
  rw [step_of_nfbState hready.modelFault hturn]
  obtain ⟨script, rfl⟩ := exists_host_of_nfbState hturn
  exact (nfbStep_of_emitEnabled (s := { s with host := script }) hready.modelFault (stopEnabled_eq_false hstop)
    (emitEnabled_of_canEmit hready)).trans (congrArg _ (pop_eq _ item))

/-! ## A frame and its outputs -/

/-- The host has no more to do, asserts neither RESET nor STOP, and is ready on both ports; the NFB is RUNNING and shows no model
fault. Of what has left nothing is asked. -/
structure State.Flowing (s : State) : Prop where
  host : s.host = []
  noReset : s.resetLevel = false
  noStop : s.stopLevel = false
  running : s.runState = runRunning
  egress : s.egressReady = true
  event : s.eventReady = true
  noFault : s.modelFault = none

namespace State.Flowing

variable {s : State} (h : s.Flowing)
include h

theorem nfbState_eq : s.nfbState = some s := by
  rw [State.nfbState, h.host]

theorem portReady (item : OutItem) : s.portReady item = true := by
  cases item with
  | tx => exact h.egress
  | ev => exact h.event

/-- The head item leaves, and nothing hinders the next. -/
theorem emit {item : OutItem} {rest : List OutItem} (hpending : s.pending = item :: rest) :
    step s = .next (s.pop item) ∧ (s.pop item).Flowing := by
  have hready : CanEmit s item := (emitEnabled_iff_canEmit h.noFault item).mp
    ((emitEnabled_iff s item).mpr ⟨h.noReset, .inl h.running, by rw [hpending]; rfl, h.portReady item⟩)
  have hstep := headItemLeavesInOrder s s item h.nfbState_eq hready (.inl h.noStop)
  rw [← pop_eq] at hstep
  have hrunning : (s.pop item).runState = runRunning := by simp [h.running, runRunning, runStopping]
  exact ⟨hstep, h.host, h.noReset, h.noStop, hrunning, h.egress, h.event, pop_modelFault h.noFault item⟩

/-- Every pending item leaves, one in each step. -/
theorem drain : core.run s.pending.length s = .next s.drained := by
  induction hpending : s.pending generalizing s with
  | nil =>
    rw [drained_of_empty hpending]
    rfl
  | cons item rest ih =>
    obtain ⟨hstep, hflowing⟩ := h.emit hpending
    rw [← drained_pop h.running hpending, List.length_cons, run_succ hstep]
    exact ih hflowing (by rw [State.pop_pending, hpending]; rfl)

end State.Flowing

/-- Settles O49: one step accepts the frame, and its outputs, at most three, drain in one step each. -/
theorem noDispositionStopsTheLoop : Obligations.NoDispositionStopsTheLoop := by
  intro s F rest hhost hready hframe hstop hegress hevent
  have hturn : s.nfbState = some s := by rw [State.nfbState, hhost]
  obtain ⟨⟨disp, outs⟩, hresult, _⟩ := processFrame_instrOf s.idMac s.idIp (loadIfb F)
  have hstep : step s = .next (s.load disp outs) :=
    ((stepRunsTheOfferedFrame s s F rest _ hturn hready hframe (decode_ingress_eq s.idIp F)).1 hstop).trans
      (exec_of_canAccept hready hresult)
  have hshape : PendingShape s.idMac s.idIp outs := pendingShape_ingressResult (instrOf_wf s.idIp (loadIfb_wf F)) hresult
  obtain ⟨hreset, hrun, _, _⟩ := hready
  have houts : outs.length ≤ 3 := length_le_of_pendingShape hshape
  have hnoFault : (s.load disp outs).modelFault = none :=
    (modelFault_eq_none_iff _).mpr ⟨by rw [State.load_runState, hrun]; decide, houts, any_itemReserved_of_pendingShape hshape⟩
  have hflowing : (s.load disp outs).Flowing := ⟨hhost, hreset, hstop, hrun, hegress, hevent, hnoFault⟩
  have hingress : (s.load disp outs).ingress = rest := by rw [State.load_ingress, hframe, List.tail_cons]
  exact ⟨outs.length + 1, (s.load disp outs).drained, (run_succ hstep).trans hflowing.drain, by omega, hrun, rfl, hingress,
    rfl, rfl, hreset⟩

end Sys2Proof.Machine
end

section
/-! PROOF of the statement about the event port: O34. What the four decodes drop is malformed, and no path that ends in a result
holds a `DecodeError`, so the drop's outputs are the only place where one appears. -/

namespace Sys2Proof.Machine

/-! ## What a computation drops -/

/-- The computation drops with a malformed disposition only, and its value meets `P`. -/
def DropsMalformed {α : Type} (P : α → Prop) : Except Reject α → Prop
  | .ok a => P a
  | .error (.drop code) => dispositionCategory code = .malformed
  | .error _ => True

section
variable {α β : Type} {P : β → Prop} {f : α → Except Reject β}

theorem DropsMalformed.bind {x : Except Reject α} (hx : DropsMalformed (fun _ => True) x) (hf : ∀ a, DropsMalformed P (f a)) :
    DropsMalformed P (x >>= f) := by
  cases x with
  | ok a => exact hf a
  | error e => cases e <;> exact hx

theorem dropsMalformed_bytesAt (m : Ifb) (a n : Nat) : DropsMalformed (fun _ => True) (bytesAt m a n) := by
  rcases Nat.lt_or_ge m.length (a + n) with hpast | hin
  · rw [bytesAt_violation m a n hpast]
    trivial
  · rw [bytesAt_ok m a n hin]
    trivial

theorem dropsMalformed_memRead (w : Nat) (m : Ifb) (a n : Nat) : DropsMalformed (fun _ => True) (memRead w m a n) := by
  rcases Nat.lt_or_ge m.length (a + n) with hpast | hin
  · rw [memRead_violation w m a n hpast]
    trivial
  · rw [memRead_ok w m a n hin]
    trivial

/-- A read of a field never drops, so what follows it decides. -/
theorem DropsMalformed.read {w : Nat} {f : BitVec w → Except Reject β} (m : Ifb) (a n : Nat)
    (hf : ∀ v, DropsMalformed P (f v)) : DropsMalformed P (memRead w m a n >>= f) :=
  (dropsMalformed_memRead w m a n).bind hf

end

/-! ## The decodes and ProcessFrame's path -/

theorem dropsMalformed_decodeEthernet (m : Ifb) (len : Nat) : DropsMalformed (fun _ => True) (decodeEthernet m len) := by
  unfold decodeEthernet
  split_ifs
  · rfl
  · iterate 3 refine .read _ _ _ fun _ => ?_
    trivial

theorem dropsMalformed_decodeArp (m : Ifb) (b n : Nat) : DropsMalformed (fun _ => True) (decodeArp m b n) := by
  unfold decodeArp
  split_ifs
  · rfl
  · iterate 4 refine .read _ _ _ fun _ => ?_
    split_ifs
    · rfl
    · iterate 5 refine .read _ _ _ fun _ => ?_
      trivial

theorem dropsMalformed_decodeIpv4 (m : Ifb) (b n : Nat) : DropsMalformed (fun _ => True) (decodeIpv4 m b n) := by
  unfold decodeIpv4
  split_ifs
  · rfl
  · refine .read _ _ _ fun versionIhl => ?_
    dsimp only
    split_ifs
    · rfl
    · rfl
    · iterate 3 refine .read _ _ _ fun _ => ?_
      trivial

theorem dropsMalformed_decodeUdp (m : Ifb) (u n : Nat) : DropsMalformed (fun _ => True) (decodeUdp m u n) := by
  unfold decodeUdp
  split_ifs
  · rfl
  · iterate 3 refine .read _ _ _ fun _ => ?_
    exact (dropsMalformed_bytesAt _ _ _).bind fun _ => trivial

/-- The result of a frame that is not dropped: it is not malformed and no `DecodeError` is among its outputs (R256, R257). -/
def NotMalformed (result : Disposition × List OutItem) : Prop :=
  dispositionCategory result.1 ≠ .malformed ∧ ∀ code, .ev (.decodeError code) ∉ result.2

/-- Each drop comes from one of the four decodes, and each result is written out in the path. -/
theorem dropsMalformed_dispatchPath (idMac : Mac) (idIp : Ip) (m : Ifb) :
    DropsMalformed NotMalformed (dispatchPath idMac idIp m) := by
  refine (dropsMalformed_decodeEthernet m m.length).bind fun eth => ?_
  split_ifs
  · refine (dropsMalformed_decodeArp m 14 (m.length - 14)).bind fun arp => ?_
    split_ifs
    · exact ⟨nofun, by simp⟩
    · cases handle idMac idIp arp with
      | none => exact ⟨nofun, by simp⟩
      | some intent => exact ⟨nofun, by simp⟩
  · refine (dropsMalformed_decodeIpv4 m 14 (m.length - 14)).bind fun ip => ?_
    split_ifs
    · exact ⟨nofun, by simp⟩
    · exact (dropsMalformed_decodeUdp m _ _).bind fun udp => ⟨nofun, by simp⟩
  · exact ⟨nofun, by simp⟩

/-! ## When a `DecodeError` is reported -/

/-- The six dispositions of R256 are the malformed ones past the Ethernet stage. -/
theorem mem_reported_iff (d : Disposition) :
    d ∈ [Disposition.malformedArpShort, .malformedArpFormat, .malformedIpv4Short, .malformedIpv4Ihl, .malformedIpv4Trunc,
        .malformedUdpShort] ↔ dispositionCategory d = .malformed ∧ d ≠ .malformedEth := by
  cases d <;> decide

theorem dropOutputs_eq_nil {report : Bool} {code : Disposition} (h : ¬ (report = true ∧ code ≠ .malformedEth)) :
    dropOutputs report code = [] :=
  if_neg (by simpa [and_comm] using h)

/-- Settles O34: a result holds no `DecodeError`, and a drop is malformed, so its outputs are decided by the parameter and the
Ethernet stage alone. -/
theorem decodeErrorExactlyWhenReported : Obligations.DecodeErrorExactlyWhenReported := by
  intro report idMac idIp F d outs h
  simp only [mem_reported_iff]
  have hpath := dropsMalformed_dispatchPath idMac idIp (loadIfb F)
  rcases dispatchPath_of_processFrame h with hok | ⟨hdrop, houts⟩
  · rw [hok] at hpath
    obtain ⟨hdisp, hsilent⟩ := hpath
    exact ⟨fun ⟨_, hmalformed, _⟩ => absurd hmalformed hdisp, fun _ => hsilent⟩
  · rw [hdrop] at hpath
    have hmalformed : dispositionCategory d = .malformed := hpath
    obtain rfl : outs = dropOutputs report d := houts
    constructor
    · rintro ⟨rfl, _, hpastEth⟩
      exact dropOutputs_of_pastEth true hpastEth
    · intro hunreported code
      rw [dropOutputs_eq_nil fun ⟨hreport, hpastEth⟩ => hunreported ⟨hreport, hmalformed, hpastEth⟩]
      exact List.not_mem_nil

end Sys2Proof.Machine
end

section
/-! PROOFS of the statements about the dispositions and about STOP beside another step: O30 and O47. The emit step and the accept step
read neither the host's script nor the STOP level, so the step not stopped is the step the NFB takes without STOP. -/

namespace Sys2Proof.Machine

/-! ## The disposition codes (R272) -/

/-- The upper half of the codes is the malformed category's. -/
theorem dispositionCode_bit3_iff (d : Disposition) :
    (dispositionCode d).getLsbD 3 = true ↔ dispositionCategory d = .malformed := by
  cases d <;> decide

theorem reservedCode_dispositionCode (d : Disposition) : reservedCode (dispositionCode d) = false := by
  cases d <;> decide

/-- Settles O30: the two tables are read off row by row, and bit 3 and the reserved codes are checked for each disposition. -/
theorem dispositionCodesAreTheTables : Obligations.DispositionCodesAreTheTables := by
  refine ⟨?codes, ?categories, fun d => ⟨dispositionCode_bit3_iff d, reservedCode_dispositionCode d⟩⟩
  case codes => decide
  case categories => decide

/-! ## A STOP beside another enabled step (R276) -/

section
variable {s : State}

theorem runTurn_workTurn_of_canEmit {item : OutItem} (hready : CanEmit s item) (u : State) :
    runTurn u (workTurn s) = .next (s.pop item) := by
  rw [workTurn, if_pos (headReady_of_canEmit hready),
    runTurn_emitTurn (pending_of_emitEnabled (emitEnabled_of_canEmit hready)), emitItem_of_canEmit hready]

theorem runTurn_workTurn_of_canAccept {frame : List Byte} {rest : List (List Byte)} {disp : Disposition} {outs : List OutItem}
    (hready : CanAccept s) (hframe : s.ingress = frame :: rest)
    (hresult : ingressResult s.idMac s.idIp (instrOf s.idIp (loadIfb frame)) = some (disp, outs)) (u : State) :
    runTurn u (workTurn s) = .next (s.load disp outs) := by
  rw [workTurn_of_canAccept hready hframe (decode_ingress_eq _ _)]
  exact exec_of_canAccept hready hresult

variable (hfault : s.modelFault = none) (hbusy : s.headReady = true ∨ s.acceptEnabled = true)
include hfault hbusy

/-- The step enabled beside STOP is the emit step of some item or the accept step. -/
theorem canEmit_or_canAccept : (∃ item, CanEmit s item) ∨ CanAccept s := by
  refine hbusy.imp (fun hhead => ?_) (acceptEnabled_iff s).mp
  unfold State.headReady at hhead
  split at hhead
  case h_1 => cases hhead
  case h_2 item _ _ => exact ⟨item, (emitEnabled_iff_canEmit hfault item).mp hhead⟩

theorem resetLevel_of_busy : s.resetLevel = false := by
  rcases canEmit_or_canAccept hfault hbusy with ⟨_, hreset, _⟩ | ⟨hreset, _⟩ <;> exact hreset

/-- The emit and the accept step make one state of `s`, whatever the host's script and the STOP level are, and leave both alone. -/
theorem exists_runTurn_workTurn : ∃ t : State, ∀ (u : State) (script : List HostAction) (level : Bool),
    runTurn u (workTurn { s with host := script, stopLevel := level }) = .next { t with host := script, stopLevel := level } := by
  rcases canEmit_or_canAccept hfault hbusy with ⟨item, hready⟩ | hready
  case inl =>
    exact ⟨s.pop item, fun u script level =>
      runTurn_workTurn_of_canEmit (s := { s with host := script, stopLevel := level }) hready u⟩
  case inr =>
    have ⟨_, _, _, hoffered⟩ := hready
    obtain ⟨frame, rest, hframe⟩ := List.exists_cons_of_ne_nil hoffered
    obtain ⟨⟨disp, outs⟩, hresult, _⟩ := processFrame_instrOf s.idMac s.idIp (loadIfb frame)
    exact ⟨s.load disp outs, fun u script level =>
      runTurn_workTurn_of_canAccept (s := { s with host := script, stopLevel := level }) hready hframe hresult u⟩

end

/-- The update of the stop step, with its condition as a proposition (R316). -/
theorem seeStop_eq (s : State) :
    s.seeStop = { s with runState := if s.pending = [] then runStopped else runStopping } := by
  simp [State.seeStop]

/-- Settles O47: the free value takes STOP first, or leaves the turn to the other step, which does not read STOP. -/
theorem stopAndOtherStepInEitherOrder : Obligations.StopAndOtherStepInEitherOrder := by
  intro s s' hturn hfault hstop hrun hbusy
  have henabled := stopEnabled_eq_true (resetLevel_of_busy hfault hbusy) hstop hrun
  obtain ⟨t, hwork⟩ := exists_runTurn_workTurn (s := s.draw) hfault hbusy
  refine ⟨{ t with host := [], stopLevel := false }, ?unstopped, ?stopped⟩
  case unstopped =>
    rw [step_of_nfbState (s := { s with host := [], stopLevel := false, draws := s.draws + 1 }) hfault rfl,
      nfbStep_of_not_stopEnabled (stopEnabled_eq_false (.inl rfl))]
    exact hwork _ [] false
  case stopped =>
    obtain ⟨script, rfl⟩ := exists_host_of_nfbState hturn
    have hother := hwork { s with host := script } script s.stopLevel
    rw [step_of_nfbState hfault hturn,
      nfbStep_of_stopEnabled (s := { s with host := script }) henabled ((Bool.or_eq_true _ _).mpr hbusy)]
    refine ite_congr rfl (fun _ => ?stopFirst) (fun _ => ?otherFirst)
    case stopFirst => exact congrArg _ (seeStop_eq _)
    case otherFirst =>
      rw [← hstop]
      exact hother

end Sys2Proof.Machine
end

section
/-! PROOFS of the statements about holds, STOP and RESET: O44, O45, O46, O48, O50, O51, O52, O53, O57 and O60. A turn with neither an
emit step nor an accept step enabled is the stop step or a hold; a STOPPING run loses its head item in each step until it is STOPPED. -/

namespace Sys2Proof.Machine

/-! ## Turns with no item and no frame to move -/

section
variable {s : State}

/-- With neither an emit step nor an accept step enabled, the turn is the stop step or a hold (R316, R323). -/
theorem nfbStep_of_not_busy (hidle : ¬ (s.headReady = true ∨ s.acceptEnabled = true)) :
    nfbStep s = .next (if s.stopEnabled then s.seeStop else s) := by
  obtain ⟨hhead, haccept⟩ := not_or.mp hidle
  by_cases hstop : s.stopEnabled = true
  · rw [nfbStep, nfbTurn, if_pos hstop, if_neg (by rwa [Bool.or_eq_true]), runTurn, if_pos hstop]
  · rw [nfbStep, nfbTurn, if_neg hstop, workTurn, if_neg hhead, if_neg haccept, runTurn, if_neg hstop]

/-- A held item is the head, so no other item can leave and no frame be accepted (R323). -/
theorem not_busy_of_held (hfault : s.modelFault = none) (hheld : Held s) :
    ¬ (s.headReady = true ∨ s.acceptEnabled = true) := by
  intro hbusy
  obtain ⟨item, rest, hpending, hport⟩ := hheld
  rcases canEmit_or_canAccept hfault hbusy with ⟨other, _, _, hhead, hready, _⟩ | ⟨_, _, hempty, _⟩
  · rw [hpending, List.head?_cons] at hhead
    cases hhead
    rw [hport] at hready
    cases hready
  · rw [hpending] at hempty
    cases hempty

theorem not_busy_of_reset (hfault : s.modelFault = none) (hreset : s.resetLevel = true) :
    ¬ (s.headReady = true ∨ s.acceptEnabled = true) := by
  intro hbusy
  rw [resetLevel_of_busy hfault hbusy] at hreset
  cases hreset

end

/-- Where it is the NFB's turn, such a turn is the step, and the host's script does not enter it. -/
theorem step_of_not_busy {s s' : State} (hturn : s.nfbState = some s') (hfault : s.modelFault = none)
    (hidle : ¬ (s.headReady = true ∨ s.acceptEnabled = true)) :
    step s = .next (if s.stopEnabled then s'.seeStop else s') := by
  rw [step_of_nfbState hfault hturn]
  obtain ⟨script, rfl⟩ := exists_host_of_nfbState hturn
  exact nfbStep_of_not_busy (s := { s with host := script }) hidle

/-- Settles O44: the turn holds, or sees STOP, which sets the run state only. -/
theorem outputHoldKeepsEverything : Obligations.OutputHoldKeepsEverything := by
  intro s s' hturn hfault hheld
  refine ⟨_, step_of_not_busy hturn hfault (not_busy_of_held hfault hheld), ?_⟩
  obtain ⟨script, rfl⟩ := exists_host_of_nfbState hturn
  by_cases hstop : s.stopEnabled = true
  · rw [if_pos hstop]
    refine ⟨rfl, rfl, rfl, rfl, fun hnoStop => ?_⟩
    rw [stopEnabled_eq_false (.inl hnoStop)] at hstop
    cases hstop
  · rw [if_neg hstop]
    exact ⟨rfl, rfl, rfl, rfl, fun _ => rfl⟩

/-- Settles O46: STOP is seen, and no other step is enabled. -/
theorem stopEndsOrDrainsTheRun : Obligations.StopEndsOrDrainsTheRun := by
  intro s s' hturn hfault hreset hstop hrun hhead haccept
  rw [step_of_not_busy hturn hfault (by simp [hhead, haccept]), if_pos (stopEnabled_eq_true hreset hstop hrun)]
  obtain ⟨script, rfl⟩ := exists_host_of_nfbState hturn
  exact congrArg _ (seeStop_eq _)

/-- Settles O50: under RESET the stop step is not enabled either. -/
theorem nothingStepsUnderReset : Obligations.NothingStepsUnderReset := by
  intro s s' hturn hfault hreset
  rw [step_of_not_busy hturn hfault (not_busy_of_reset hfault hreset), if_neg (by simp [State.stopEnabled, hreset])]

/-! ## What a move takes from the line, and what STOPPED allows -/

/-- A move leaves the line and the trace alone, or accepts the oldest frame. -/
theorem NfbMove.ingress_trace {s t : State} (h : NfbMove s t) :
    (t.ingress = s.ingress ∧ t.trace = s.trace) ∨ (CanAccept s ∧ t.ingress = s.ingress.tail ∧ ∃ d, t.trace = s.trace ++ [d]) := by
  cases h with
  | hold | stop | emit => exact .inl ⟨rfl, rfl⟩
  | accept frame rest i result henabled => exact .inr ⟨henabled, rfl, result.1, rfl⟩

/-- Settles O45: neither the host's script nor a draw enters what a move takes. -/
theorem oneFrameAtATime : Obligations.OneFrameAtATime := by
  intro s s' t hturn hstep
  rw [step_of_nfbState (guarded_next hstep).1 hturn] at hstep
  obtain ⟨script, rfl⟩ := exists_host_of_nfbState hturn
  rcases nfbStep_next hstep with hmove | hmove <;> exact hmove.ingress_trace

/-- In STOPPED the only move is the hold: every other one asks for RUNNING or STOPPING (R318). -/
theorem NfbMove.eq_of_stopped {s t : State} (h : NfbMove s t) (hstopped : s.runState = runStopped) : t = s := by
  cases h with
  | hold => rfl
  | stop henabled =>
    rw [State.stopEnabled, hstopped, show (runStopped == runRunning) = false by decide, Bool.and_false] at henabled
    cases henabled
  | emit item henabled =>
    obtain ⟨_, hrun, _⟩ := (emitEnabled_iff s item).mp henabled
    rw [hstopped] at hrun
    exact absurd hrun (by decide)
  | accept _ _ _ _ henabled =>
    obtain ⟨_, hrun, _⟩ := henabled
    exact absurd (hstopped.symm.trans hrun) (by decide)

/-- Settles O48: the host's other actions do not touch the run state, and the NFB holds. -/
theorem onlyResetLeavesStopped : Obligations.OnlyResetLeavesStopped := by
  intro s t hstep hstopped hnoReset
  rcases step_next hstep with ⟨a, rest, hhost, _, rfl⟩ | ⟨s', hturn, hnfb⟩
  · have hother : ∀ level, a ≠ .reset level := fun level ha => hnoReset level rest (ha ▸ hhost)
    obtain ⟨_, _, hrun, _, _, hobserved, htrace⟩ := hostStep_frame a { s with host := rest } hother
    exact ⟨hrun.trans hstopped, hobserved, htrace⟩
  · obtain ⟨script, rfl⟩ := exists_host_of_nfbState hturn
    rcases nfbStep_next hnfb with hmove | hmove <;> cases hmove.eq_of_stopped hstopped <;> exact ⟨hstopped, rfl, rfl⟩

/-! ## RESET -/

theorem driveReset_false {s : State} (h : s.resetLevel = true) : s.driveReset false = s.releaseReset := by
  rw [State.driveReset, if_neg Bool.false_ne_true, if_pos h]

theorem driveReset_true {s : State} (h : s.resetLevel = false) : s.driveReset true = s.assertReset := by
  rw [State.driveReset, if_pos rfl, if_neg (by simp [h])]

/-- Settles O51: the step is the host's, and the level changes. -/
theorem releaseOfResetSamplesTheIdentity : Obligations.ReleaseOfResetSamplesTheIdentity := by
  intro s rest hfault hreset hhost
  exact (step_of_host hfault hhost nofun).trans (congrArg _ (driveReset_false (s := { s with host := rest }) hreset))

/-- Settles O52: the step is the host's, and the level changes. -/
theorem assertingResetDiscardsPending : Obligations.AssertingResetDiscardsPending := by
  intro s rest hfault hreset hhost
  exact (step_of_host hfault hhost nofun).trans (congrArg _ (driveReset_true (s := { s with host := rest }) hreset))

/-- Settles O53: the fields of the reset state are read off. -/
theorem resetStateIsTheTables : Obligations.ResetStateIsTheTables :=
  ⟨rfl, rfl, rfl, rfl⟩

/-- Settles O57: the reset state is RUNNING, and nothing is pending or has left. -/
theorem resetMeetsTheInvariant : Obligations.ResetMeetsTheInvariant where
  runLegal := by decide
  stoppedEmpty _ := rfl
  stoppingBusy hstopping := absurd hstopping (by decide)
  resetEmpty _ := ⟨rfl, rfl⟩
  pendingShape := trivial
  sentPending _ hsent := nomatch hsent
  sentAfterReply before _ _ hsplit := by cases before <;> cases hsplit
  onlyReplies _ hmem := nomatch hmem

/-! ## STOPPING -/

theorem portReady_of_ready {s : State} (hegress : s.egressReady = true) (hevent : s.eventReady = true) (item : OutItem) :
    s.portReady item = true := by
  cases item with
  | tx => exact hegress
  | ev => exact hevent

/-- In STOPPING the head leaves whenever its port is ready, whatever the STOP level is (R317). -/
theorem step_of_stopping {s : State} {item : OutItem} {rest : List OutItem} (hinv : s.Inv) (hhost : s.host = [])
    (hreset : s.resetLevel = false) (hrun : s.runState = runStopping) (hpending : s.pending = item :: rest)
    (hport : s.portReady item = true) : step s = .next (s.pop item) ∧ (s.pop item).Inv := by
  have hturn : s.nfbState = some s := by rw [State.nfbState, hhost]
  have henabled : s.emitEnabled item = true :=
    (emitEnabled_iff s item).mpr ⟨hreset, .inr hrun, by rw [hpending, List.head?_cons], hport⟩
  refine ⟨?_, hinv.pop henabled⟩
  rw [step_of_nfbState hinv.modelFault hturn]
  exact nfbStep_of_emitEnabled hinv.modelFault (stopEnabled_eq_false (.inr hrun)) henabled

/-- Settles O60, by induction on the items behind the head: the last one's step ends in STOPPED, and every other stays in STOPPING. -/
theorem stoppingDrainsThenStops : Obligations.StoppingDrainsThenStops := by
  intro s hinv hhost hreset hrun hegress hevent
  obtain ⟨item, rest, hpending⟩ := List.exists_cons_of_ne_nil (hinv.stoppingBusy hrun)
  induction rest generalizing s item with
  | nil =>
    obtain ⟨hstep, _⟩ := step_of_stopping hinv hhost hreset hrun hpending (portReady_of_ready hegress hevent item)
    rw [hpending, List.length_singleton, run_succ hstep, pop_eq, hpending, List.tail_cons, if_pos ⟨hrun, rfl⟩]
    rfl
  | cons second rest ih =>
    obtain ⟨hstep, hpopInv⟩ := step_of_stopping hinv hhost hreset hrun hpending (portReady_of_ready hegress hevent item)
    have hpopPending : (s.pop item).pending = second :: rest := by rw [State.pop_pending, hpending, List.tail_cons]
    have hpopRun : (s.pop item).runState = runStopping := by simp [hpending, hrun]
    have hrest := ih (s.pop item) hpopInv hhost hreset hpopRun hegress hevent second hpopPending
    rw [hpopPending] at hrest
    rw [hpending, List.length_cons, run_succ hstep, hrest]
    simp [State.pop]

end Sys2Proof.Machine
end
